-- ==== Sys2Proof/Word.lean ====
section
/-! DEFINITION. The word types of the leafy-chip8 CORE (spec/00_scope.md R4, R5, R6): every architectural value is an
unsigned integer of a fixed width, bit 0 the least significant. -/

namespace Sys2Proof

/-- An 8-bit value: a general register, a timer, a memory byte (R10, R15, R19). -/
abbrev Byte := BitVec 8

/-- A 16-bit value: `pc`, `I`, a return address, an instruction word (R12, R13, R14, R50). -/
abbrev Word := BitVec 16

/-- The index of a general register V0 to VF (R10): what the 4-bit fields `x` and `y` select. -/
abbrev Reg := Fin 16

/-- The index of VF, the general register that is also the machine's only flag (R11). -/
abbrev Reg.vf : Reg := 15

end Sys2Proof
end

