-- ==== Sys2Proof/Syntax.lean ====
section
/-! DEFINITION. The instructions: one constructor per row of spec/opcode_table.json, operands as the fields of
spec/30_encoding.md R51 name them (`x`, `y` register indices, `nn`, `nnn` unsigned constants, `n` a row count). -/

namespace Sys2Proof

/-- The seventeen instructions of R55 and the default row, an unmatched word (R57, R130).
`CLS` and `RET` carry no operand: their field `x` is ignored (R54). -/
inductive Instr where
  /-- `CLS`, 0-E0 (R80) -/
  | cls
  /-- `RET`, 0-EE (R81) -/
  | ret
  /-- `JP nnn`, 1nnn (R82) -/
  | jp (nnn : BitVec 12)
  /-- `CALL nnn`, 2nnn (R83) -/
  | call (nnn : BitVec 12)
  /-- `LD Vx, nn`, 6xnn (R90) -/
  | ldVxNn (x : Reg) (nn : Byte)
  /-- `ADD Vx, nn`, 7xnn (R91) -/
  | addVxNn (x : Reg) (nn : Byte)
  /-- `LD I, nnn`, Annn (R92) -/
  | ldINnn (nnn : BitVec 12)
  /-- `LD Vx, Vy`, 8xy0 (R100) -/
  | ldVxVy (x y : Reg)
  /-- `OR Vx, Vy`, 8xy1 (R101) -/
  | or (x y : Reg)
  /-- `AND Vx, Vy`, 8xy2 (R102) -/
  | and (x y : Reg)
  /-- `XOR Vx, Vy`, 8xy3 (R103) -/
  | xor (x y : Reg)
  /-- `ADD Vx, Vy`, 8xy4 (R104) -/
  | addVxVy (x y : Reg)
  /-- `SUB Vx, Vy`, 8xy5 (R105) -/
  | sub (x y : Reg)
  /-- `SUBN Vx, Vy`, 8xy7 (R106) -/
  | subn (x y : Reg)
  /-- `SHR Vx, Vy`, 8xy6 (R107) -/
  | shr (x y : Reg)
  /-- `SHL Vx, Vy`, 8xyE (R108) -/
  | shl (x y : Reg)
  /-- `DRW Vx, Vy, n`, Dxyn, `n` rows (R120) -/
  | drw (x y : Reg) (n : Fin 16)
  /-- any word that selects no row (R58, R130); the word is kept, its fields are ignored -/
  | unmatched (w : Word)
deriving DecidableEq, Repr

/-- The name of a row of the opcode map (R55), without its operands. -/
inductive Op where
  | cls | ret | jp | call | ldVxNn | addVxNn | ldINnn | ldVxVy | or | and | xor | addVxVy | sub | subn | shr | shl | drw
deriving DecidableEq, Repr

/-- The row an instruction belongs to; none for an unmatched word, which belongs to no row. -/
def Instr.op : Instr → Option Op
  | .cls => some .cls
  | .ret => some .ret
  | .jp _ => some .jp
  | .call _ => some .call
  | .ldVxNn _ _ => some .ldVxNn
  | .addVxNn _ _ => some .addVxNn
  | .ldINnn _ => some .ldINnn
  | .ldVxVy _ _ => some .ldVxVy
  | .or _ _ => some .or
  | .and _ _ => some .and
  | .xor _ _ => some .xor
  | .addVxVy _ _ => some .addVxVy
  | .sub _ _ => some .sub
  | .subn _ _ => some .subn
  | .shr _ _ => some .shr
  | .shl _ _ => some .shl
  | .drw _ _ _ => some .drw
  | .unmatched _ => none

end Sys2Proof
end

