-- ==== Sys2Proof/Machine/OpcodeTable.lean ====
section
/-! DEFINITION. The opcode map of spec/30_encoding.md R55 as data: one row per instruction with its mask and match, held as
configuration apart from the semantics (R56). UNVERIFIED: thirteen of the numbers come from general knowledge
(decision D4, assumption 1), and the don't-care bits of class 0 are decision D5 (assumption 2). -/

namespace Sys2Proof

/-- A row of R55: a word `w` selects it when `w AND mask == pattern` (the spec's column "match"). -/
structure OpcodeRow where
  op : Op
  mask : Word
  pattern : Word
deriving DecidableEq, Repr

/-- Does the word select the row (R55)? -/
def OpcodeRow.selects (r : OpcodeRow) (w : Word) : Bool := w &&& r.mask == r.pattern

/-- The seventeen rows of R55, in its order. -/
def opcodeTable : List OpcodeRow := [
  ⟨.cls,     0xF0FF, 0x00E0⟩,
  ⟨.ret,     0xF0FF, 0x00EE⟩,
  ⟨.jp,      0xF000, 0x1000⟩,
  ⟨.call,    0xF000, 0x2000⟩,
  ⟨.ldVxNn,  0xF000, 0x6000⟩,
  ⟨.addVxNn, 0xF000, 0x7000⟩,
  ⟨.ldINnn,  0xF000, 0xA000⟩,
  ⟨.ldVxVy,  0xF00F, 0x8000⟩,
  ⟨.or,      0xF00F, 0x8001⟩,
  ⟨.and,     0xF00F, 0x8002⟩,
  ⟨.xor,     0xF00F, 0x8003⟩,
  ⟨.addVxVy, 0xF00F, 0x8004⟩,
  ⟨.sub,     0xF00F, 0x8005⟩,
  ⟨.shr,     0xF00F, 0x8006⟩,
  ⟨.subn,    0xF00F, 0x8007⟩,
  ⟨.shl,     0xF00F, 0x800E⟩,
  ⟨.drw,     0xF000, 0xD000⟩]

/-- The row a word selects, none when it is unmatched (R55, R58). -/
def selectOp (w : Word) : Option Op := (opcodeTable.find? (·.selects w)).map (·.op)

end Sys2Proof
end

