-- ==== Sys2Proof/WellFormed.lean ====
section
/-! DEFINITION. Which terms of `Instr` stand for an instruction. The operand types carry the field widths of
spec/30_encoding.md R51, so one check is left: the word of `unmatched` selects no row of the opcode map (R57, R58). -/

namespace Sys2Proof

/-- Is the term an instruction of the machine? -/
def Instr.wellFormed : Instr → Bool
  | .unmatched w => (selectOp w).isNone
  | .cls | .ret | .jp _ | .call _ | .ldVxNn _ _ | .addVxNn _ _ | .ldINnn _ | .ldVxVy _ _ | .or _ _ | .and _ _ | .xor _ _
  | .addVxVy _ _ | .sub _ _ | .subn _ _ | .shr _ _ | .shl _ _ | .drw _ _ _ => true

end Sys2Proof
end

