-- ==== Sys2Proof/Decode.lean ====
section
/-! DEFINITION. The decoder and the encoder (spec/30_encoding.md R50 to R58, R62), the bit fields of R51 and the byte order of
spec/20_memory.md R33. Decoding is total on words (R57); on a byte string it refuses, by name, one that is too short. -/

namespace Sys2Proof

/-! ## Byte order (R33): the byte at the lower address is the more significant half -/

/-- `opcode = (byte0 << 8) | byte1` (R32, R33). -/
def joinBytes (byte0 byte1 : Byte) : Word := byte0 ++ byte1

/-- The more significant byte of a word, stored at the lower address (R33). -/
def highByte (w : Word) : Byte := w.extractLsb' 8 8

/-- The less significant byte of a word, stored at the higher address (R33). -/
def lowByte (w : Word) : Byte := w.extractLsb' 0 8

/-! ## The fields of R51 -/

/-- `x = (opcode & 0x0F00) >> 8`, bits 11 to 8: a register index. -/
def fieldX (w : Word) : Reg := (w.extractLsb' 8 4).toFin

/-- `y = (opcode & 0x00F0) >> 4`, bits 7 to 4: a register index. -/
def fieldY (w : Word) : Reg := (w.extractLsb' 4 4).toFin

/-- `n = opcode & 0x000F`, bits 3 to 0: a sub-opcode or a row count. -/
def fieldN (w : Word) : Fin 16 := (w.extractLsb' 0 4).toFin

/-- `nn = opcode & 0x00FF`, bits 7 to 0. -/
def fieldNN (w : Word) : Byte := w.extractLsb' 0 8

/-- `nnn = opcode & 0x0FFF`, bits 11 to 0. -/
def fieldNNN (w : Word) : BitVec 12 := w.extractLsb' 0 12

/-! ## The decoder -/

/-- The instruction of a row with the operands of a word: each row uses the fields of its format (R52). -/
def Op.instr (op : Op) (w : Word) : Instr :=
  match op with
  | .cls => .cls
  | .ret => .ret
  | .jp => .jp (fieldNNN w)
  | .call => .call (fieldNNN w)
  | .ldVxNn => .ldVxNn (fieldX w) (fieldNN w)
  | .addVxNn => .addVxNn (fieldX w) (fieldNN w)
  | .ldINnn => .ldINnn (fieldNNN w)
  | .ldVxVy => .ldVxVy (fieldX w) (fieldY w)
  | .or => .or (fieldX w) (fieldY w)
  | .and => .and (fieldX w) (fieldY w)
  | .xor => .xor (fieldX w) (fieldY w)
  | .addVxVy => .addVxVy (fieldX w) (fieldY w)
  | .sub => .sub (fieldX w) (fieldY w)
  | .subn => .subn (fieldX w) (fieldY w)
  | .shr => .shr (fieldX w) (fieldY w)
  | .shl => .shl (fieldX w) (fieldY w)
  | .drw => .drw (fieldX w) (fieldY w) (fieldN w)

/-- Decoding (R57): a total function of the word alone; a word that selects no row is `unmatched` (R58). -/
def decode (w : Word) : Instr :=
  match selectOp w with
  | some op => op.instr w
  | none => .unmatched w

/-- Why a byte string is no instruction. -/
inductive DecodeReject where
  /-- fewer than the two bytes of an instruction (R50); a fetch always has two, so no step meets it -/
  | truncated
deriving DecidableEq, Repr

/-- Decode the instruction at the head of a byte string: two bytes, the more significant first (R50). -/
def decodeBytes : List Byte → Except DecodeReject (Instr × List Byte)
  | byte0 :: byte1 :: rest => .ok (decode (joinBytes byte0 byte1), rest)
  | _ => .error .truncated

/-- The word that `nbits` bits of the opcode table's numbering stand for; every higher bit is zero. -/
def tableWord (nbits w : Nat) : Word := BitVec.ofNat 16 (w % 2 ^ nbits)

/-- What the decoder reads from an instruction given in the opcode table's numbering (bit 0 the least significant bit of
the one word), laid out as two bytes, more significant first (R33). -/
def decodeTableWord (nbits w : Nat) : Option Instr :=
  match decodeBytes [highByte (tableWord nbits w), lowByte (tableWord nbits w)] with
  | .ok (i, _) => some i
  | .error _ => none

/-! ## The encoder, from the format table of R52 and the patterns of R55 -/

/-- Format S: `0000 ---- nn`, the ignored digit written 0 (R52, R60). -/
def encodeS (nn : Byte) : Word := 0#4 ++ 0#4 ++ nn

/-- Format A: class digit, then nnn (R52). -/
def encodeA (cls : BitVec 4) (nnn : BitVec 12) : Word := cls ++ nnn

/-- Format K: class digit, x, nn (R52). -/
def encodeK (cls : BitVec 4) (x : Reg) (nn : Byte) : Word := cls ++ BitVec.ofFin (w := 4) x ++ nn

/-- Formats R and D: class digit, x, y, last digit (R52). -/
def encodeXY (cls : BitVec 4) (x y : Reg) (n : BitVec 4) : Word :=
  cls ++ BitVec.ofFin (w := 4) x ++ BitVec.ofFin (w := 4) y ++ n

/-- The word of an instruction (R55); for `CLS` and `RET` the canonical one with x = 0 (R60, R62). -/
def encode : Instr → Word
  | .cls => encodeS 0xE0
  | .ret => encodeS 0xEE
  | .jp nnn => encodeA 0x1 nnn
  | .call nnn => encodeA 0x2 nnn
  | .ldVxNn x nn => encodeK 0x6 x nn
  | .addVxNn x nn => encodeK 0x7 x nn
  | .ldINnn nnn => encodeA 0xA nnn
  | .ldVxVy x y => encodeXY 0x8 x y 0x0
  | .or x y => encodeXY 0x8 x y 0x1
  | .and x y => encodeXY 0x8 x y 0x2
  | .xor x y => encodeXY 0x8 x y 0x3
  | .addVxVy x y => encodeXY 0x8 x y 0x4
  | .sub x y => encodeXY 0x8 x y 0x5
  | .subn x y => encodeXY 0x8 x y 0x7
  | .shr x y => encodeXY 0x8 x y 0x6
  | .shl x y => encodeXY 0x8 x y 0xE
  | .drw x y n => encodeXY 0xD x y (BitVec.ofFin (w := 4) n)
  | .unmatched w => w

/-- The two bytes of an instruction in memory order (R33). -/
def encodeBytes (i : Instr) : List Byte := [highByte (encode i), lowByte (encode i)]

end Sys2Proof
end

