-- ==== Sys2Proof/Machine/Flags.lean ====
section
/-! DEFINITION. Every flag computation of the spec (spec/10_state.md R11, table of flag writers). A flag is the whole byte
0x00 or 0x01 (R11 (c)). The collision flag of `DRW` is gathered in Draw.lean, pixel by pixel. -/

namespace Sys2Proof.Machine

/-- The byte a flag is written as: 0x00 or 0x01 (R11 (c)). -/
def flagByte (b : Bool) : Byte := if b then 1 else 0

/-- Carry of the register add: the unsigned sum exceeds 255 (spec/43_alu.md R104). -/
def carries (vx vy : Byte) : Bool := 255 < vx.toNat + vy.toNat

/-- Borrow of a subtraction: the subtrahend is greater than the minuend (R105, R106). -/
def borrows (minuend subtrahend : Byte) : Bool := minuend.toNat < subtrahend.toNat

/-- The flag of both shifts: bit 0 of the source before the shift, in both directions (R107, R108). -/
def shiftFlag (vy : Byte) : Bool := vy.getLsbD 0

end Sys2Proof.Machine
end

