-- ==== Sys2Proof/Config.lean ====
section
/-! DEFINITION. What the source fixes for this machine (spec/00_scope.md R4): the sizes and the two fixed addresses.
The opcode numbers, also configuration (spec/30_encoding.md R56), stand in Machine/OpcodeTable.lean, and the FONT
parameter (spec/20_memory.md R37) in Machine/Font.lean. The machine leaves no value open at run time
(spec/93_implementation_defined.md section 1), so there is no opaque constant here. -/

namespace Sys2Proof

/-- MEM_SIZE: 4096 bytes, addressed by 12 bits (R4, R19, R31). -/
@[simp] abbrev Config.memSize : Nat := 4096

/-- FONT_LEN: the font table takes the 80 bytes 0x000 to 0x04F (R4, R36). -/
@[simp] abbrev Config.fontLen : Nat := 80

/-- PROG_BASE: the program region starts at 0x200 (R4, R36). -/
@[simp] abbrev Config.progBase : Nat := 0x200

/-- RESET_PC: the program counter is initialized to the start of the program region (R4, R12). -/
@[simp] abbrev Config.resetPc : Word := 0x200

/-- FB_W: 64 columns (R4, R16). -/
@[simp] abbrev Config.fbWidth : Nat := 64

/-- FB_H: 32 rows (R4, R16). -/
@[simp] abbrev Config.fbHeight : Nat := 32

end Sys2Proof
end

