-- ==== Sys2Proof/Machine/Font.lean ====
section
/-! DEFINITION. The FONT parameter (spec/20_memory.md R36, R37): the 80 bytes at 0x000 to 0x04F after reset, fixed for the
life of the machine (spec/10_state.md section 1). Reset with a FONT (`State.resetWith`) and the host operations take it as an
argument, as spec/00_scope.md R4 asks of an OPEN parameter. DESIGN CHOICE (assumption 7, unsafe): the one constant
`State.reset` of the host's interface is the reset of the machine whose FONT is the default table the spec prints. -/

namespace Sys2Proof

/-- A FONT: 80 bytes (R37). -/
abbrev Config.Font := Vector Byte 80

/-- The rows of the default FONT of R37, five a glyph, in the order 0 to F. -/
def Config.defaultFontRows : List Byte :=
  [0xF0, 0x90, 0x90, 0x90, 0xF0] ++ [0x20, 0x60, 0x20, 0x20, 0x70] ++
  [0xF0, 0x10, 0xF0, 0x80, 0xF0] ++ [0xF0, 0x10, 0xF0, 0x10, 0xF0] ++
  [0x90, 0x90, 0xF0, 0x10, 0x10] ++ [0xF0, 0x80, 0xF0, 0x10, 0xF0] ++
  [0xF0, 0x80, 0xF0, 0x90, 0xF0] ++ [0xF0, 0x10, 0x20, 0x40, 0x40] ++
  [0xF0, 0x90, 0xF0, 0x90, 0xF0] ++ [0xF0, 0x90, 0xF0, 0x10, 0xF0] ++
  [0xF0, 0x90, 0xF0, 0x90, 0x90] ++ [0xE0, 0x90, 0xE0, 0x90, 0xE0] ++
  [0xF0, 0x80, 0x80, 0x80, 0xF0] ++ [0xE0, 0x90, 0x90, 0x90, 0xE0] ++
  [0xF0, 0x80, 0xF0, 0x80, 0xF0] ++ [0xF0, 0x80, 0xF0, 0x80, 0x80]

/-- The default FONT (R37). -/
def Config.defaultFont : Config.Font := ⟨Config.defaultFontRows.toArray, rfl⟩

/-- What memory holds after reset (R22) on a machine with a given FONT: `FONT[a]` at 0x000 to 0x04F, 0x00 above. -/
def resetByteOf (font : Config.Font) (a : Nat) : Byte := if h : a < 80 then font[a] else 0

/-- What an address that memory does not list holds: the reset contents under the default FONT. -/
def resetByte (a : Nat) : Byte := resetByteOf Config.defaultFont a

end Sys2Proof
end

