-- ==== Sys2Proof/Machine/State.lean ====
section
/-! DEFINITION. The state of the core (spec/10_state.md section 1): every element of its table, as plain data, and its value
after reset (R22). -/

namespace Sys2Proof.Machine

/-- The one exception of the machine (spec/60_exceptions.md R140). -/
inductive Fault where
  /-- `StackUnderflow(a)`: raised by the `RET` at address `a` that finds the call stack empty. It is recorded in
  `State.fault`, in a next state (R141: the spec gives the state after the faulting cycle). No step ends with it as the
  outcome `.fault`. Safe: a run that met it carries the latch, and a claim about success asks for no fault. -/
  | stackUnderflow (a : Word)
deriving DecidableEq, Repr

/-- Why a step could have no meaning. -/
inductive Refusal where
  /-- An instruction without a meaning in the model, by its mnemonic. Raised by none: every row has its meaning. Safe. -/
  | notModelled (mnemonic : String)
deriving DecidableEq, Repr

/-- `Mem` (R19): the (address, byte) pairs that differ from the reset contents, in the canonical form `Memory.wf` of
Ops.lean says: addresses strictly rising, below 4096. -/
abbrev Memory := List Host.Cell

/-- `FB` (R16): 32 rows of 64 pixels, true when the pixel is on; `fb[py][px]` is `FB[px, py]`. -/
abbrev Framebuffer := Vector (Vector Bool 64) 32

/-- The whole state of the core (section 1 of spec/10_state.md). -/
structure State where
  /-- `V[0]` to `V[15]`, 8 bits each; `V[15]` is VF (R10, R11) -/
  v : Vector Byte 16
  /-- the program counter, 16 bits, not reduced to 12 (R12) -/
  pc : Word
  /-- the index register `I`, 16 bits (R13) -/
  i : Word
  /-- the call stack, its top first; it has no depth limit (R14) -/
  stack : List Word
  /-- `DT`, the delay timer (R15) -/
  dt : Byte
  /-- `ST`, the sound timer (R15) -/
  st : Byte
  /-- the framebuffer (R16) -/
  fb : Framebuffer
  /-- the redraw flag (R17) -/
  redraw : Bool
  /-- the fault latch; the core is halted while it is not none (R18) -/
  fault : Option Fault
  /-- `Mem` (R19) -/
  mem : Memory
deriving DecidableEq, Repr

/-- The state after reset (R22, spec/70_reset_and_hazards.md R160). The source gives `pc` and the presence of the font; the
other values are the spec's decision D9 (UNVERIFIED, unsafe; assumption 8). Memory lists nothing: it holds its reset
contents (assumption 7 for the font bytes). -/
def State.reset : State where
  v := Vector.replicate 16 0
  pc := Config.resetPc
  i := 0
  stack := []
  dt := 0
  st := 0
  fb := Vector.replicate 32 (Vector.replicate 64 false)
  redraw := false
  fault := none
  mem := []

end Sys2Proof.Machine
end

