-- ==== Sys2Proof/Machine/Ops.lean ====
section
/-! DEFINITION. The named operations over memory, registers, the call stack, the framebuffer, the timers and the fault latch
(the primitives of spec/00_scope.md R7). Every meaning reads and writes the state through these. -/

namespace Sys2Proof.Machine

/-! ## Memory (spec/20_memory.md) -/

/-- The canonical form: addresses strictly rising, each below 4096, no entry equal to the reset contents of its address. -/
abbrev Memory.wf (m : Memory) : Prop :=
  m.Pairwise (fun c d => c.1 < d.1) ∧ ∀ c ∈ m, c.1 < Config.memSize ∧ c.2 ≠ resetByte c.1

/-- The byte at an address below 4096; an address not listed holds its reset contents (R22, R36). -/
def Memory.get : Memory → Nat → Byte
  | [], a => resetByte a
  | (k, b) :: rest, a => if k = a then b else Memory.get rest a

/-- An entry put before a memory, unless it says what an unlisted address holds anyway. -/
def Memory.cons (a : Nat) (b : Byte) (m : Memory) : Memory := if b = resetByte a then m else (a, b) :: m

/-- The memory with one byte replaced, in canonical form again. -/
def Memory.set : Memory → Nat → Byte → Memory
  | [], a, b => Memory.cons a b []
  | (k, c) :: rest, a, b =>
    if a < k then Memory.cons a b ((k, c) :: rest)
    else if a = k then Memory.cons a b rest
    else (k, c) :: Memory.set rest a b

/-- Every address is reduced to 12 bits before use (R31; UNVERIFIED: decision D2, assumption 3). -/
def reduceAddr (a : Nat) : Nat := a % Config.memSize

/-- `MemRead(addr, 1)` (R31). -/
def State.memRead (s : State) (addr : Nat) : Byte := s.mem.get (reduceAddr addr)

/-- `MemWrite(addr, 1, b)` (R31). No instruction uses it; `load` does (R35). -/
def State.memWrite (s : State) (addr : Nat) (b : Byte) : State := { s with mem := s.mem.set (reduceAddr addr) b }

/-- Consecutive bytes written from an address up. -/
def State.memWriteList (s : State) (addr : Nat) : List Byte → State
  | [] => s
  | b :: rest => (s.memWrite addr b).memWriteList (addr + 1) rest

/-- The instruction fetch (R32): the two bytes at `pc` and `pc + 1`, joined big-endian. -/
def State.fetchWord (s : State) : Word := joinBytes (s.memRead s.pc.toNat) (s.memRead (s.pc.toNat + 1))

/-- A word stored where the next instruction is fetched from, more significant byte first (R33). -/
def State.storeAtPc (s : State) (w : Word) : State := s.memWriteList s.pc.toNat [highByte w, lowByte w]

/-! ## General registers (spec/10_state.md R10, R11) -/

/-- `V[r]` (R10): all sixteen readable, none hard-wired. -/
def State.readV (s : State) (r : Reg) : Byte := s.v[r]

/-- `V[r] <- b` (R10). -/
def State.writeV (s : State) (r : Reg) (b : Byte) : State := { s with v := s.v.set r b }

/-- `VF <- flag`: the whole register becomes 0x00 or 0x01 (R11 (c)). -/
def State.writeFlag (s : State) (flag : Bool) : State := s.writeV Reg.vf (flagByte flag)

/-- The result, when the rule stores one, into `V[x]`, and then the flag into VF: with x = 0xF the flag is what remains
(R11 (d), spec/43_alu.md R109; UNVERIFIED: decision D6, assumption 5). -/
def State.writeResultThenFlag (s : State) (x : Reg) (result : Option Byte) (flag : Bool) : State :=
  match result with
  | some b => (s.writeV x b).writeFlag flag
  | none => s.writeFlag flag

/-- The result, when the rule stores one, into `V[x]`; no flag (spec/42_immediate.md R91). -/
def State.writeResult (s : State) (x : Reg) (result : Option Byte) : State :=
  match result with
  | some b => s.writeV x b
  | none => s

/-! ## pc, I and the call stack (R12, R13, R14) -/

/-- `pc <- target` (R12). -/
def State.writePc (s : State) (target : Word) : State := { s with pc := target }

/-- The advance of every cycle: `pc <- (pc + 2) mod 65536` (R12; UNVERIFIED: decision D3, assumption 4). -/
def State.advancePc (s : State) : State := s.writePc (s.pc + 2)

/-- The address of the instruction that is executing: the advance has already been made (spec/40_cycle.md R70, R72), so it
is `pc - 2` modulo 65536 (DEDUCED, assumption 20). -/
def State.instrAddr (s : State) : Word := s.pc - 2

/-- `I <- w` (R13). -/
def State.writeI (s : State) (w : Word) : State := { s with i := w }

/-- `push(w)`: it always succeeds, the stack has no bound (R14; UNVERIFIED: decision D11, assumption 11). -/
def State.push (s : State) (w : Word) : State := { s with stack := w :: s.stack }

/-- The call stack without its top: the other half of `pop()` (R14). -/
def State.dropTop (s : State) : State := { s with stack := s.stack.tail }

/-! ## The framebuffer and the redraw flag (R16, R17) -/

/-- `FB[px, py]` of a framebuffer (R16). -/
def Framebuffer.pixel (fb : Framebuffer) (px : Fin 64) (py : Fin 32) : Bool := fb[py][px]

/-- `FB[px, py] <- b` of a framebuffer (R16). -/
def Framebuffer.setPixel (fb : Framebuffer) (px : Fin 64) (py : Fin 32) (b : Bool) : Framebuffer :=
  fb.set py (fb[py].set px b)

/-- Every pixel off (spec/41_system_flow.md R80). -/
def Framebuffer.clear : Framebuffer := Vector.replicate 32 (Vector.replicate 64 false)

/-- The pixels row by row: element `py * 64 + px` is `FB[px, py]` (spec/80_host_interface.md R183; UNVERIFIED: decision
D20, assumption 19). -/
def Framebuffer.flat (fb : Framebuffer) : List Bool := (fb.toList.map Vector.toList).flatten

/-- `FB[px, py]` (R16). -/
def State.pixel (s : State) (px : Fin 64) (py : Fin 32) : Bool := Framebuffer.pixel s.fb px py

/-- The framebuffer replaced (R16). -/
def State.writeFb (s : State) (fb : Framebuffer) : State := { s with fb := fb }

/-- The redraw flag written (R17). -/
def State.writeRedraw (s : State) (b : Bool) : State := { s with redraw := b }

/-! ## Timers (spec/60_exceptions.md R150) -/

/-- One step of a timer: down by one, and 0 stays 0 (R150). -/
def countDown (t : Byte) : Byte := if t ≠ 0 then t - 1 else t

/-- The timer step: both timers, independently (R150). -/
def State.timerStep (s : State) : State := { s with dt := countDown s.dt, st := countDown s.st }

/-! ## Taking the exception (R140, R141) -/

/-- `raise StackUnderflow(a)`: the latch records the address of the faulting `RET`; nothing is saved anywhere else, control
goes nowhere, and `pc` keeps the advanced value (R141; UNVERIFIED: decision D10, assumption 9). The machine has no return
from it (R145): only reset clears the latch. -/
def State.raiseStackUnderflow (s : State) (a : Word) : State := { s with fault := some (.stackUnderflow a) }

/-- The core is halted while the latch holds a fault (R18). -/
def State.halted (s : State) : Bool := s.fault.isSome

/-- The cause code: 0 for none, 1 for `StackUnderflow` (R140; decision D10, assumption 9). -/
def causeCode : Option Fault → Nat
  | none => 0
  | some (.stackUnderflow _) => 1

/-- The end of a cycle (spec/40_cycle.md R70, R74): the timer step, except in the cycle that faulted. -/
def State.finishCycle (s : State) : State := if s.halted then s else s.timerStep

/-! ## Reset of a machine with a given FONT (spec/20_memory.md R37, spec/70_reset_and_hazards.md R160) -/

/-- Reset on the machine whose FONT is given: its bytes at 0x000 to 0x04F, everything else as `State.reset`. -/
def State.resetWith (font : Config.Font) : State := State.reset.memWriteList 0 font.toList

end Sys2Proof.Machine
end

