-- ==== Sys2Proof/Machine/Operands.lean ====
section
/-! DEFINITION. Every operand form of spec/30_encoding.md R53: registers read before any write (spec/00_scope.md R8), constants
zero-extended, the sprite rows at `I`, the screen origin; and the result of each operation on operand values. A result is
`none` when the rule stores nothing. -/

namespace Sys2Proof.Machine

/-- `zext_16(nnn)`: the 12-bit constant as an address (R53). -/
def addrConst (nnn : BitVec 12) : Word := nnn.setWidth 16

/-- Row `r` of the sprite: the byte at `(I + r) mod 4096` (spec/44_draw.md R120, R126). -/
def State.spriteRow (s : State) (r : Nat) : Byte := s.memRead (s.i.toNat + r)

/-- The column of a sprite's origin: `V[x] mod 64` (R120). -/
def originColumn (vx : Byte) : Nat := vx.toNat % Config.fbWidth

/-- The row of a sprite's origin: `V[y] mod 32` (R120). -/
def originRow (vy : Byte) : Nat := vy.toNat % Config.fbHeight

/-- Pixel `b` of a sprite row, `b = 0` the leftmost: bit `7 - b` (R121; UNVERIFIED: decision D7, assumption 6). -/
def spriteBit (row : Byte) (b : Nat) : Bool := row.getLsbD (7 - b)

/-- Both adds store the sum only when it is at most 255 (spec/42_immediate.md R91, spec/43_alu.md R104). -/
def addResult (vx k : Byte) : Option Byte :=
  if vx.toNat + k.toNat ≤ 255 then some (BitVec.ofNat 8 (vx.toNat + k.toNat)) else none

/-- Both subtractions store the exact difference only when there is no borrow (R105, R106; UNVERIFIED: decision D16,
assumption 15). -/
def subResult (minuend subtrahend : Byte) : Option Byte :=
  if subtrahend.toNat ≤ minuend.toNat then some (BitVec.ofNat 8 (minuend.toNat - subtrahend.toNat)) else none

/-- `vy >> 1`, zero entering at bit 7 (R107; UNVERIFIED: decision D17, assumption 16). -/
def shrResult (vy : Byte) : Byte := BitVec.ofNat 8 (vy.toNat / 2)

/-- `(vy << 1) mod 256` (R108; UNVERIFIED: decision D17, assumption 16). -/
def shlResult (vy : Byte) : Byte := BitVec.ofNat 8 (2 * vy.toNat % 256)

end Sys2Proof.Machine
end

