-- ==== Sys2Proof/Machine/Alu.lean ====
section
/-! DEFINITION. The arithmetic/logic class 8xy0 to 8xyE (spec/43_alu.md). Both operands are read before any write, the result
is written before the flag (R109); the copy and the bitwise instructions write no flag (UNVERIFIED: decision D19,
assumption 18). -/

namespace Sys2Proof.Machine

/-- `LD Vx, Vy` (R100). -/
def execLdVxVy (x y : Reg) (s : State) : Host.Outcome State Fault Refusal := .next (s.writeV x (s.readV y))

/-- `OR Vx, Vy` (R101). -/
def execOr (x y : Reg) (s : State) : Host.Outcome State Fault Refusal := .next (s.writeV x (s.readV x ||| s.readV y))

/-- `AND Vx, Vy` (R102). -/
def execAnd (x y : Reg) (s : State) : Host.Outcome State Fault Refusal := .next (s.writeV x (s.readV x &&& s.readV y))

/-- `XOR Vx, Vy` (R103). -/
def execXor (x y : Reg) (s : State) : Host.Outcome State Fault Refusal := .next (s.writeV x (s.readV x ^^^ s.readV y))

/-- `ADD Vx, Vy` (R104): on overflow VF <- 1 and `V[x]` is not written; else the sum and VF <- 0. -/
def execAddVxVy (x y : Reg) (s : State) : Host.Outcome State Fault Refusal :=
  .next (s.writeResultThenFlag x (addResult (s.readV x) (s.readV y)) (carries (s.readV x) (s.readV y)))

/-- `SUB Vx, Vy` (R105): on borrow VF <- 0 and `V[x]` is not written; else `vx - vy` and VF <- 1. -/
def execSub (x y : Reg) (s : State) : Host.Outcome State Fault Refusal :=
  .next (s.writeResultThenFlag x (subResult (s.readV x) (s.readV y)) (!borrows (s.readV x) (s.readV y)))

/-- `SUBN Vx, Vy` (R106): as `SUB` with the roles of the two values swapped; the destination is still `V[x]` (UNVERIFIED:
decision D21, assumption 15). -/
def execSubn (x y : Reg) (s : State) : Host.Outcome State Fault Refusal :=
  .next (s.writeResultThenFlag x (subResult (s.readV y) (s.readV x)) (!borrows (s.readV y) (s.readV x)))

/-- `SHR Vx, Vy` (R107): the source is `V[y]`; VF <- bit 0 of it before the shift. -/
def execShr (x y : Reg) (s : State) : Host.Outcome State Fault Refusal :=
  .next (s.writeResultThenFlag x (some (shrResult (s.readV y))) (shiftFlag (s.readV y)))

/-- `SHL Vx, Vy` (R108): the source is `V[y]`; VF <- bit 0 of it, not bit 7. -/
def execShl (x y : Reg) (s : State) : Host.Outcome State Fault Refusal :=
  .next (s.writeResultThenFlag x (some (shlResult (s.readV y))) (shiftFlag (s.readV y)))

end Sys2Proof.Machine
end

