-- ==== Sys2Proof/Machine/Draw.lean ====
section
/-! DEFINITION. The draw instruction (spec/44_draw.md), pixel by pixel in the order of R120's pseudocode. -/

namespace Sys2Proof.Machine

/-- A drawing under way: the framebuffer, and whether a pixel has gone from on to off (R120's `collision`). -/
structure Canvas where
  fb : Framebuffer
  collision : Bool
deriving DecidableEq, Repr

/-- XOR-toggle one pixel, recording a collision when it was on (R120). -/
def Canvas.toggle (c : Canvas) (px : Fin 64) (py : Fin 32) : Canvas :=
  { fb := Framebuffer.setPixel c.fb px py (!Framebuffer.pixel c.fb px py)
    collision := c.collision || Framebuffer.pixel c.fb px py }

/-- Bit `b` of row `r` at origin (ox, oy): column `(ox + b) mod 64`, row `(oy + r) mod 32`; a 0 bit does nothing
(R120, R122). -/
def Canvas.drawBit (ox oy r : Nat) (row : Byte) (c : Canvas) (b : Nat) : Canvas :=
  if spriteBit row b then c.toggle (Fin.ofNat 64 (ox + b)) (Fin.ofNat 32 (oy + r)) else c

/-- The eight bits of one row, leftmost first (R120). -/
def Canvas.drawRow (ox oy r : Nat) (row : Byte) (c : Canvas) : Canvas :=
  [0, 1, 2, 3, 4, 5, 6, 7].foldl (Canvas.drawBit ox oy r row) c

/-- The first `n` rows, top first (R120): no row at all when `n = 0` (R123; UNVERIFIED: decision D18, assumption 17). -/
def Canvas.drawRows (ox oy : Nat) (row : Nat → Byte) (c : Canvas) : Nat → Canvas
  | 0 => c
  | n + 1 => (Canvas.drawRows ox oy row c n).drawRow ox oy n (row n)

/-- The canvas after the sprite of `DRW Vx, Vy, n` (R120): coordinates and rows are read from the state before any write. -/
def State.drawSprite (s : State) (x y : Reg) (n : Fin 16) : Canvas :=
  Canvas.drawRows (originColumn (s.readV x)) (originRow (s.readV y)) s.spriteRow ⟨s.fb, false⟩ n.val

/-- `DRW Vx, Vy, n` (R120): draw, then VF <- collision, then `redraw <- true`, whatever was drawn. -/
def execDrw (x y : Reg) (n : Fin 16) (s : State) : Host.Outcome State Fault Refusal :=
  .next (((s.writeFb (s.drawSprite x y n).fb).writeFlag (s.drawSprite x y n).collision).writeRedraw true)

end Sys2Proof.Machine
end

