-- ==== Sys2Proof/Machine/Flow.lean ====
section
/-! DEFINITION. The system class and control transfer (spec/41_system_flow.md): `CLS`, `RET`, `JP`, `CALL`. Every meaning
runs after the `pc` advance of the cycle (spec/40_cycle.md R70): `s.pc` is already a + 2. -/

namespace Sys2Proof.Machine

/-- `CLS` (R80): every pixel off; VF and `redraw` unchanged (UNVERIFIED: decision D12, assumption 12). -/
def execCls (s : State) : Host.Outcome State Fault Refusal := .next (s.writeFb Framebuffer.clear)

/-- `RET` (R81): pop the call stack into `pc`, all 16 bits; with an empty stack raise `StackUnderflow(a)`, `a` the address
of this `RET`, and leave everything else (spec/60_exceptions.md R141). -/
def execRet (s : State) : Host.Outcome State Fault Refusal :=
  match s.stack with
  | [] => .next (s.raiseStackUnderflow s.instrAddr)
  | top :: _ => .next (s.dropTop.writePc top)

/-- `JP nnn` (R82): `pc <- zext_16(nnn)`. -/
def execJp (nnn : BitVec 12) (s : State) : Host.Outcome State Fault Refusal := .next (s.writePc (addrConst nnn))

/-- `CALL nnn` (R83): push the advanced `pc`, then `pc <- zext_16(nnn)`. -/
def execCall (nnn : BitVec 12) (s : State) : Host.Outcome State Fault Refusal :=
  .next ((s.push s.pc).writePc (addrConst nnn))

end Sys2Proof.Machine
end

