-- ==== Sys2Proof/Machine/Immediate.lean ====
section
/-! DEFINITION. The immediate instructions (spec/42_immediate.md): `LD Vx, nn`, `ADD Vx, nn`, `LD I, nnn`. None writes a flag;
with x = 0xF the register is written as data. -/

namespace Sys2Proof.Machine

/-- `LD Vx, nn` (R90): `V[x] <- nn`. -/
def execLdVxNn (x : Reg) (nn : Byte) (s : State) : Host.Outcome State Fault Refusal := .next (s.writeV x nn)

/-- `ADD Vx, nn` (R91): the sum when it is at most 255, else nothing; never a flag. -/
def execAddVxNn (x : Reg) (nn : Byte) (s : State) : Host.Outcome State Fault Refusal :=
  .next (s.writeResult x (addResult (s.readV x) nn))

/-- `LD I, nnn` (R92): `I <- zext_16(nnn)`. -/
def execLdINnn (nnn : BitVec 12) (s : State) : Host.Outcome State Fault Refusal := .next (s.writeI (addrConst nnn))

end Sys2Proof.Machine
end

