-- ==== Sys2Proof/Machine/Unmatched.lean ====
section
/-! DEFINITION. The no-op class (spec/45_unmatched_noop.md): every word that selects no row. -/

namespace Sys2Proof.Machine

/-- An unmatched word (R130): nothing happens and nothing records it; the cycle around it still advances `pc` and steps the
timers. -/
def execUnmatched (s : State) : Host.Outcome State Fault Refusal := .next s

end Sys2Proof.Machine
end

