-- ==== Sys2Proof/Machine/Cycle.lean ====
section
/-! DEFINITION. The cycle, `execute_cycle` (spec/40_cycle.md): fetch, decode, advance, execute, timer step, as one transition. -/

namespace Sys2Proof.Machine

/-- Everything of a cycle after the halted test: fetch and decode the word at `pc`, advance `pc`, execute, and end the cycle
with the timer step unless it faulted (R70, R72, R74). -/
def runInstr (s : State) : Host.Outcome State Fault Refusal :=
  match exec (decode s.fetchWord) s.advancePc with
  | .next t => .next t.finishCycle
  | .fault r => .fault r
  | .refused r => .refused r

/-- One `execute_cycle` (R70). A halted core changes no state at all (R71; UNVERIFIED: decision D10, assumption 9): the
result is the same state again (DESIGN CHOICE, assumption 10). -/
def executeCycle (s : State) : Host.Outcome State Fault Refusal := if s.halted then .next s else runInstr s

/-- What `execute_cycle` returns to the host (spec/60_exceptions.md R157, spec/80_host_interface.md R182). -/
inductive CycleResult where
  | ok
  | faulted (f : Fault)
  | halted (f : Fault)
deriving DecidableEq, Repr

/-- The result of the cycle that took `s` to `t`: `Halted` when `s` was halted, `Faulted` when this cycle faulted (R182). -/
def cycleResult (s t : State) : CycleResult :=
  match s.fault, t.fault with
  | some f, _ => .halted f
  | none, some f => .faulted f
  | none, none => .ok

end Sys2Proof.Machine
end

