-- ==== Sys2Proof/Machine/Step.lean ====
section
/-! DEFINITION. The step of the machine is one `execute_cycle` (spec/40_cycle.md R70, spec/80_host_interface.md R182). -/

namespace Sys2Proof.Machine

/-- One step: one cycle. -/
def step (s : State) : Host.Outcome State Fault Refusal := executeCycle s

/-- The state with an instruction, given in the opcode table's numbering, stored where `step` fetches next: its two bytes at
`pc` and `pc + 1`, each modulo 4096, and no fault latched, since a halted core fetches nothing (R71; assumption 21). -/
def State.withFetchWord (s : State) (nbits w : Nat) : State :=
  { s.storeAtPc (tableWord nbits w) with fault := none }

end Sys2Proof.Machine
end

