-- ==== Sys2Proof/Machine/HostOps.lean ====
section
/-! DEFINITION. The host operations (spec/80_host_interface.md): `reset`, `load`, `execute_cycle`, `framebuffer_snapshot`,
`needs_redraw`, `consume_redraw`. Each is atomic and acts between cycles (R180). -/

namespace Sys2Proof.Machine

/-- The result of `load` (R181). -/
inductive LoadResult where
  | ok
  | loadTooLarge
deriving DecidableEq, Repr

/-- Would a ROM of `k` bytes run past the end of memory (R181)? -/
def loadTooLong (k : Nat) : Bool := Config.memSize < Config.progBase + k

/-- `load(bytes)` (R181): all or nothing; it writes the bytes at 0x200 up and nothing else, on a halted core too (UNVERIFIED:
decision D14, assumption 14). -/
def State.load (s : State) (bytes : List Byte) : State :=
  if loadTooLong bytes.length then s else s.memWriteList Config.progBase bytes

/-- What `load(bytes)` answers (R181). -/
def loadResult (bytes : List Byte) : LoadResult := if loadTooLong bytes.length then .loadTooLarge else .ok

/-- `consume_redraw()` clears the flag (R185; UNVERIFIED: decision D12, assumption 12). -/
def State.consumeRedraw (s : State) : State := s.writeRedraw false

/-- The host operations of R180, complete. -/
inductive HostOp where
  | reset
  | load (bytes : List Byte)
  | executeCycle
  | framebufferSnapshot
  | needsRedraw
  | consumeRedraw
deriving DecidableEq, Repr

/-- What an operation answers (R180, table). -/
inductive HostReply where
  | none
  | load (r : LoadResult)
  | cycle (r : CycleResult)
  | grid (pixels : List Bool)
  | flag (b : Bool)
deriving DecidableEq, Repr

/-- One host operation on the machine with a given FONT: the state after it and its answer (R180). FONT is fixed for the life
of the machine, so every reset puts the same bytes back (spec/10_state.md section 1, spec/70_reset_and_hazards.md R160). -/
def HostOp.apply (font : Config.Font) (op : HostOp) (s : State) : Host.Outcome (State × HostReply) Fault Refusal :=
  match op with
  | .reset => .next (State.resetWith font, .none)
  | .load bytes => .next (s.load bytes, .load (loadResult bytes))
  | .executeCycle =>
    match Sys2Proof.Machine.executeCycle s with
    | .next t => .next (t, .cycle (cycleResult s t))
    | .fault r => .fault r
    | .refused r => .refused r
  | .framebufferSnapshot => .next (s, .grid (Framebuffer.flat s.fb))
  | .needsRedraw => .next (s, .flag s.redraw)
  | .consumeRedraw => .next (s.consumeRedraw, .flag s.redraw)

/-- A sequence of host operations, one after another, with the answers in order (R180). -/
def runHost (font : Config.Font) : List HostOp → State → Host.Outcome (State × List HostReply) Fault Refusal
  | [], s => .next (s, [])
  | op :: ops, s =>
    match op.apply font s with
    | .fault r => .fault r
    | .refused r => .refused r
    | .next (t, reply) =>
      match runHost font ops t with
      | .next (u, replies) => .next (u, reply :: replies)
      | .fault r => .fault r
      | .refused r => .refused r

end Sys2Proof.Machine
end

