-- ==== Sys2Proof/Safety.lean ====
section
/-! DEFINITION. What statements are made of: the parts of the state, what it means that only some of them change, the access
matrix of spec/10_state.md R25, the invariant of the machine, and a run without fault (spec/70_reset_and_hazards.md R166). -/

namespace Sys2Proof.Machine

/-! ## The parts of the state (spec/10_state.md section 1) -/

/-- A piece of state: one column of the access matrix R25 (each general register and each timer on its own). -/
inductive Part where
  | reg (r : Reg)
  | index
  | pc
  | stack
  | memory
  | screen
  | redraw
  | fault
  | delayTimer
  | soundTimer
deriving DecidableEq, Repr

/-- The two states agree on the part: memory by its bytes, the framebuffer by its pixels. -/
def Part.same (p : Part) (s t : State) : Prop :=
  match p with
  | .reg r => t.readV r = s.readV r
  | .index => t.i = s.i
  | .pc => t.pc = s.pc
  | .stack => t.stack = s.stack
  | .memory => ∀ addr, t.memRead addr = s.memRead addr
  | .screen => ∀ px py, t.pixel px py = s.pixel px py
  | .redraw => t.redraw = s.redraw
  | .fault => t.fault = s.fault
  | .delayTimer => t.dt = s.dt
  | .soundTimer => t.st = s.st

/-- The frame: from `s` to `t` nothing outside the listed parts has changed. -/
def ChangesOnly (parts : List Part) (s t : State) : Prop := ∀ p, p ∉ parts → p.same s t

/-! ## The access matrix (R25) -/

/-- The parts an instruction may write (R25, the cells with `w`); the fetch, the `pc` advance and the timer step of the cycle
are not among them. -/
def writesOf : Instr → List Part
  | .cls => [.screen]
  | .ret => [.pc, .stack, .fault]
  | .jp _ => [.pc]
  | .call _ => [.pc, .stack]
  | .ldVxNn x _ => [.reg x]
  | .addVxNn x _ => [.reg x]
  | .ldINnn _ => [.index]
  | .ldVxVy x _ => [.reg x]
  | .or x _ => [.reg x]
  | .and x _ => [.reg x]
  | .xor x _ => [.reg x]
  | .addVxVy x _ => [.reg x, .reg Reg.vf]
  | .sub x _ => [.reg x, .reg Reg.vf]
  | .subn x _ => [.reg x, .reg Reg.vf]
  | .shr x _ => [.reg x, .reg Reg.vf]
  | .shl x _ => [.reg x, .reg Reg.vf]
  | .drw _ _ _ => [.reg Reg.vf, .screen, .redraw]
  | .unmatched _ => []

/-- The parts an instruction reads (R25, the cells with `r`). -/
def readsOf : Instr → List Part
  | .cls => []
  | .ret => [.stack]
  | .jp _ => []
  | .call _ => [.pc]
  | .ldVxNn _ _ => []
  | .addVxNn x _ => [.reg x]
  | .ldINnn _ => []
  | .ldVxVy _ y => [.reg y]
  | .or x y => [.reg x, .reg y]
  | .and x y => [.reg x, .reg y]
  | .xor x y => [.reg x, .reg y]
  | .addVxVy x y => [.reg x, .reg y]
  | .sub x y => [.reg x, .reg y]
  | .subn x y => [.reg x, .reg y]
  | .shr _ y => [.reg y]
  | .shl _ y => [.reg y]
  | .drw x y _ => [.reg x, .reg y, .index, .memory, .screen]
  | .unmatched _ => []

/-! ## The invariant and a run without fault -/

/-- `I` never leaves the 12-bit range (R13); memory is in canonical form; and where the core has faulted it stands as
R141 says: the stack empty, `pc` two past the `RET` whose address the latch holds, and a `RET` word in memory there. -/
structure State.Inv (s : State) : Prop where
  index_in_range : s.i.toNat < Config.memSize
  memory_canonical : Memory.wf s.mem
  faulted_at_ret : ∀ a, s.fault = some (.stackUnderflow a) →
    s.stack = [] ∧ s.pc = a + 2 ∧ decode (joinBytes (s.memRead a.toNat) (s.memRead (a.toNat + 1))) = .ret

/-- A run of `n` cycles that is not faulted (R166): it ends in a next state with the latch empty. -/
def RunsWithoutFault (n : Nat) (s t : State) : Prop :=
  Host.Core.run { State := State, Fault := Fault, Refusal := Refusal, step := step, reset := State.reset } n s = .next t ∧
    t.fault = none

end Sys2Proof.Machine
end

