-- ==== Sys2Proof/Certificates/Slice0/Obligations.lean ====
section
/-! DEFINITION. The statements about the machine, from the numbered rules of spec/. `exec i s` runs on a state whose `pc` has
already been advanced (spec/40_cycle.md R70); `step` is the whole cycle. Every statement is over all states unless its
hypotheses say otherwise. Where a clause rests on a decision of spec/92_eei_decisions.md or on a value from general
knowledge, the docstring names the decision and the assumption. -/

open Sys2Proof Sys2Proof.Machine

/-! ## Encoding (spec/30_encoding.md) -/

/-- Words of each family decode as the opcode map of R55 says (the words of 95_test_vectors.md and their relatives; the
numbers are decision D4, assumption 1, and the ignored field x decision D5, assumption 2). -/
def Obligations.SpecWordsDecode : Prop :=
  decode 0x00E0 = .cls ∧ decode 0x0AE0 = .cls ∧ decode 0x00EE = .ret ∧ decode 0x07EE = .ret ∧
  decode 0x1ABC = .jp 0xABC ∧ decode 0x2300 = .call 0x300 ∧ decode 0x6005 = .ldVxNn 0 0x05 ∧
  decode 0x7003 = .addVxNn 0 0x03 ∧ decode 0xA218 = .ldINnn 0x218 ∧ decode 0x8120 = .ldVxVy 1 2 ∧
  decode 0x8121 = .or 1 2 ∧ decode 0x8122 = .and 1 2 ∧ decode 0x8123 = .xor 1 2 ∧ decode 0x8014 = .addVxVy 0 1 ∧
  decode 0x8015 = .sub 0 1 ∧ decode 0x8306 = .shr 3 0 ∧ decode 0x8017 = .subn 0 1 ∧ decode 0x841E = .shl 4 1 ∧
  decode 0xD123 = .drw 1 2 3 ∧ decode 0x0000 = .unmatched 0x0000 ∧ decode 0x3A12 = .unmatched 0x3A12 ∧
  decode 0x8128 = .unmatched 0x8128 ∧ decode 0xFFFF = .unmatched 0xFFFF

/-- R51: the operand fields as the masks and shifts of the source, and how they overlap. -/
def Obligations.OperandFieldsAreTheSourceMasks : Prop :=
  ∀ w : Word,
    (fieldX w).val = (w.toNat &&& 0x0F00) >>> 8 ∧ (fieldY w).val = (w.toNat &&& 0x00F0) >>> 4 ∧
    (fieldN w).val = w.toNat &&& 0x000F ∧ (fieldNN w).toNat = w.toNat &&& 0x00FF ∧
    (fieldNNN w).toNat = w.toNat &&& 0x0FFF ∧
    (fieldNN w).toNat = (fieldY w).val * 16 + (fieldN w).val ∧
    (fieldNNN w).toNat = (fieldX w).val * 256 + (fieldNN w).toNat

/-- R55: the rows of the opcode map are pairwise disjoint, so the order of testing does not matter. -/
def Obligations.OpcodeRowsDisjoint : Prop :=
  ∀ (w : Word) (r q : OpcodeRow), r ∈ opcodeTable → q ∈ opcodeTable → r.selects w = true → q.selects w = true → r = q

/-- Decoding the word of a well-formed instruction gives the instruction back, with every operand (R51 to R55). -/
def Obligations.DecodeEncodeAgree : Prop := ∀ i : Instr, i.wellFormed = true → decode (encode i) = i

/-- R62: re-encoding a decoded word gives the word back, but for the words of `CLS` and `RET`, whose canonical word has the
ignored field x written 0; and the word so written is the same instruction. -/
def Obligations.EncodeDecodeCanonical : Prop :=
  ∀ w : Word,
    encode (decode w) =
      (if w.toNat / 4096 = 0 ∧ w.toNat % 256 = 0xE0 then 0x00E0
       else if w.toNat / 4096 = 0 ∧ w.toNat % 256 = 0xEE then 0x00EE else w) ∧
    decode (encode (decode w)) = decode w

/-- R57: decoding is total, and what it gives is an instruction of the machine. -/
def Obligations.DecodedIsWellFormed : Prop := ∀ w : Word, (decode w).wellFormed = true

/-- R58: the unmatched words are exactly (a) class 0 with nn other than E0 and EE, (b) classes 3, 4, 5, 9, B, C, E, F,
(c) class 8 with n in 8, 9, A, B, C, D, F (the numbers are decision D4, assumption 1; the keys D5, assumption 2). -/
def Obligations.UnmatchedWordsExactly : Prop :=
  ∀ w : Word,
    decode w = .unmatched w ↔
      (w.toNat / 4096 = 0 ∧ w.toNat % 256 ≠ 0xE0 ∧ w.toNat % 256 ≠ 0xEE) ∨
      w.toNat / 4096 ∈ [0x3, 0x4, 0x5, 0x9, 0xB, 0xC, 0xE, 0xF] ∨
      (w.toNat / 4096 = 8 ∧ w.toNat % 16 ∈ [0x8, 0x9, 0xA, 0xB, 0xC, 0xD, 0xF])

/-! ## The cycle (spec/40_cycle.md) -/

/-- R32: the fetch reads the two bytes at `pc` and `pc + 1`, each address modulo 4096, and joins them as
`(byte0 << 8) | byte1`, in every state. -/
def Obligations.FetchJoinsTwoBytesBigEndian : Prop :=
  ∀ s : State,
    s.fetchWord = ((s.mem.get (s.pc.toNat % 4096)).setWidth 16 <<< 8) |||
      (s.mem.get ((s.pc.toNat + 1) % 4096)).setWidth 16

/-- R70: on a core that is not halted the step is the decoded instruction run on the state with `pc` advanced by 2, followed
by the timer step unless that instruction faulted. -/
def Obligations.StepRunsDecodedInstruction : Prop :=
  ∀ (s : State) (i : Instr), s.fault = none → decode s.fetchWord = i → i.wellFormed = true →
    ∃ t, exec i { s with pc := s.pc + 2 } = .next t ∧
      step s = .next (if t.fault = none then { t with dt := countDown t.dt, st := countDown t.st } else t)

/-- R71, R182: a cycle of a halted core changes no state at all and answers the host `Halted` with the latched fault
(decision D10, assumptions 9 and 10). -/
def Obligations.HaltedCycleChangesNothing : Prop :=
  ∀ (font : Config.Font) (s : State) (f : Fault), s.fault = some f →
    step s = .next s ∧ HostOp.executeCycle.apply font s = .next (s, .cycle (.halted f))

/-- R57, R75: every state has a next state; no step is refused and none ends the machine. -/
def Obligations.EveryStepAnswersNext : Prop := ∀ s : State, ∃ t, step s = .next t

/-- The table of R12: how each instruction leaves `pc`, `a + 2` wrapping at 65536 (decision D3, assumption 4). -/
def Obligations.PcAfterEachCycle : Prop :=
  ∀ s : State, s.fault = none →
    ∃ t, step s = .next t ∧ t.pc =
      match decode s.fetchWord, s.stack with
      | .jp nnn, _ => BitVec.ofNat 16 nnn.toNat
      | .call nnn, _ => BitVec.ofNat 16 nnn.toNat
      | .ret, top :: _ => top
      | _, _ => BitVec.ofNat 16 ((s.pc.toNat + 2) % 65536)

/-- R72 (b): a `CALL` followed at once by a `RET` comes back to the address after the `CALL`, with the stack as before. -/
def Obligations.CallThenRetComesBack : Prop :=
  ∀ (s t u : State) (nnn : BitVec 12), s.fault = none → decode s.fetchWord = .call nnn → step s = .next t →
    decode t.fetchWord = .ret → step t = .next u → u.pc = s.pc + 2 ∧ u.stack = s.stack ∧ u.fault = none

/-- R150: a cycle that does not fault steps both timers once, floored at zero, whichever instruction ran. -/
def Obligations.TimersStepOncePerCycle : Prop :=
  ∀ s : State, s.fault = none → ¬(decode s.fetchWord = .ret ∧ s.stack = []) →
    ∃ t, step s = .next t ∧ t.dt.toNat = s.dt.toNat - 1 ∧ t.st.toNat = s.st.toNat - 1

/-- R150 over a run: after n cycles without a fault a timer has gone down by n, floored at zero (95_test_vectors.md
section 8, last line). -/
def Obligations.TimersOverUnfaultedRun : Prop :=
  ∀ (n : Nat) (s t : State), RunsWithoutFault n s t → t.dt.toNat = s.dt.toNat - n ∧ t.st.toNat = s.st.toNat - n

/-- R15, R21, R151: no instruction and no host operation reads a timer. Two states that differ in the timers only step to
states that differ in the timers only, and every host operation gives them the same answer and such states again. -/
def Obligations.TimersObservedByNobody : Prop :=
  ∀ (s : State) (dt st : Byte),
    (∃ t dt' st', step s = .next t ∧ step { s with dt := dt, st := st } = .next { t with dt := dt', st := st' }) ∧
    ∀ (font : Config.Font) (op : HostOp), ∃ t r dt' st', op.apply font s = .next (t, r) ∧
      op.apply font { s with dt := dt, st := st } = .next ({ t with dt := dt', st := st' }, r)

/-- R166: a program that stands on a jump to itself has finished: every further cycle changes nothing but the timers. -/
def Obligations.FinishedProgramSpins : Prop :=
  ∀ (s : State) (nnn : BitVec 12), s.fault = none → decode s.fetchWord = .jp nnn → s.pc.toNat = nnn.toNat →
    ∃ t, step s = .next t ∧ ChangesOnly [.delayTimer, .soundTimer] s t ∧ t.fetchWord = s.fetchWord

/-! ## The exception (spec/60_exceptions.md) -/

/-- R140, R141, R74: a `RET` that finds the stack empty latches its own address, leaves `pc` at a + 2, and changes nothing
else: no timer step, no memory, no register (decision D10, assumption 9). `execute_cycle` answers the host `Faulted`. -/
def Obligations.EmptyStackRetTakesFault : Prop :=
  ∀ (font : Config.Font) (s : State), s.fault = none → decode s.fetchWord = .ret → s.stack = [] →
    ∃ t, step s = .next t ∧ t = { s with pc := s.pc + 2, fault := some (.stackUnderflow s.pc) } ∧
      HostOp.executeCycle.apply font s = .next (t, .cycle (.faulted (.stackUnderflow s.pc)))

/-- R140: the exception is raised by a `RET` with an empty stack and by nothing else. -/
def Obligations.OnlyEmptyStackRetFaults : Prop :=
  ∀ (s t : State), s.fault = none → step s = .next t → (t.fault ≠ none ↔ decode s.fetchWord = .ret ∧ s.stack = [])

/-- R147: unmatched words, the adds on overflow and the subtractions on borrow set no fault and signal nothing: every cycle
of an instruction other than `RET` leaves the latch empty, and `execute_cycle` answers the host `Ok`. -/
def Obligations.DefinedNoOpsAreNoErrors : Prop :=
  ∀ (font : Config.Font) (s : State), s.fault = none → decode s.fetchWord ≠ .ret →
    ∃ t, step s = .next t ∧ t.fault = none ∧ HostOp.executeCycle.apply font s = .next (t, .cycle .ok)

/-- R142, R145: on a halted core every host operation completes, every one but `reset` leaves the latch as it is, and
`reset` clears it with everything else (decision D10, assumption 9). -/
def Obligations.OnlyResetClearsFault : Prop :=
  ∀ (font : Config.Font) (op : HostOp) (s : State) (f : Fault), s.fault = some f →
    ∃ t r, op.apply font s = .next (t, r) ∧ (op ≠ .reset → t.fault = some f) ∧
      (op = .reset → t = State.resetWith font ∧ t.fault = none)

/-! ## The whole machine -/

/-- R35: no instruction writes memory; every byte reads after a cycle as it read before. -/
def Obligations.CyclesLeaveMemory : Prop :=
  ∀ (s t : State), step s = .next t → ∀ addr : Nat, t.memRead addr = s.memRead addr

/-- R17: a cycle sets `redraw` when it executes a `DRW` and never clears it. -/
def Obligations.OnlyDrawSetsRedraw : Prop :=
  ∀ s : State, s.fault = none →
    ∃ t, step s = .next t ∧
      (t.redraw = true ↔ s.redraw = true ∨ ∃ x y n, decode s.fetchWord = .drw x y n)

/-- The invariant of Safety.lean (R13, R141, and the memory's canonical form) is kept by every step, from every state that
has it. -/
def Obligations.InvariantKeptByEveryStep : Prop := ∀ (s t : State), s.Inv → step s = .next t → t.Inv

/-- The invariant holds after reset. -/
def Obligations.InvariantAtReset : Prop := State.reset.Inv

/-- R19, R38: 0x000 to 0x1FF hold their reset contents for ever, whatever FONT the machine has and whatever the host does,
in whatever order, resets included (zero above the font is decision D9, assumption 8). -/
def Obligations.LowMemoryNeverChanges : Prop :=
  ∀ (font : Config.Font) (ops : List HostOp) (s t : State) (rs : List HostReply), Memory.wf s.mem →
    (∀ a, a < 0x200 → s.memRead a = resetByteOf font a) → runHost font ops s = .next (t, rs) →
    ∀ a, a < 0x200 → t.memRead a = resetByteOf font a

/-- R25, the cells with w: an instruction changes nothing outside the parts the access matrix lists for it. -/
def Obligations.AccessMatrixWrites : Prop :=
  ∀ (i : Instr) (s t : State), exec i s = .next t → ChangesOnly (writesOf i) s t

/-- R25, the cells with r: what an instruction leaves in a part depends on the parts it reads, and on that part itself where
it may be left alone, and on nothing else; but the address `RET` latches (R140) is found from `pc`, which the matrix reads in
its row for the fetch, so `pc` is admitted for `RET` where the part is the fault latch (DEDUCED, assumption 20). -/
def Obligations.AccessMatrixReads : Prop :=
  ∀ (i : Instr) (s s' t t' : State), exec i s = .next t → exec i s' = .next t' →
    ∀ p : Part,
      (∀ q : Part, q ∈ readsOf i ∨ q = p ∨ (i = .ret ∧ p = .fault ∧ q = .pc) → q.same s s') → p.same t t'

/-- R11 (c): the six flag writers leave VF 0x00 or 0x01, the whole byte. -/
def Obligations.FlagWritersLeaveZeroOrOne : Prop :=
  ∀ (i : Instr) (s : State),
    (∃ x y, i = .addVxVy x y ∨ i = .sub x y ∨ i = .subn x y ∨ i = .shr x y ∨ i = .shl x y ∨ ∃ n, i = .drw x y n) →
    ∃ t, exec i s = .next t ∧ (t.readV Reg.vf = 0x00 ∨ t.readV Reg.vf = 0x01)

/-! ## System class and control transfer (spec/41_system_flow.md) -/

/-- R80: `CLS` turns every pixel off and changes nothing else; VF and `redraw` keep their values (decision D12,
assumption 12). -/
def Obligations.ClsTurnsEveryPixelOff : Prop :=
  ∀ s : State, ∃ t, exec .cls s = .next t ∧ (∀ px py, t.pixel px py = false) ∧ ChangesOnly [.screen] s t

/-- R81: `RET` with a stack that is not empty takes the top entry, all 16 bits, into `pc`. -/
def Obligations.RetPopsIntoPc : Prop :=
  ∀ (s : State) (top : Word) (rest : List Word), s.stack = top :: rest →
    ∃ t, exec .ret s = .next t ∧ t.pc = top ∧ t.stack = rest ∧ ChangesOnly [.pc, .stack] s t

/-- R81, R141: `RET` with an empty stack changes only the latch, which records the address two before the advanced `pc`
(decision D10, assumption 9; the address is DEDUCED, assumption 20). -/
def Obligations.RetOnEmptyStackLatches : Prop :=
  ∀ s : State, s.stack = [] →
    ∃ t, exec .ret s = .next t ∧ t.fault = some (.stackUnderflow (s.pc - 2)) ∧ ChangesOnly [.fault] s t

/-- R82: `JP nnn` sets `pc` to nnn; bits 15 to 12 become 0. -/
def Obligations.JpSetsPc : Prop :=
  ∀ (s : State) (nnn : BitVec 12), ∃ t, exec (.jp nnn) s = .next t ∧ t.pc.toNat = nnn.toNat ∧ ChangesOnly [.pc] s t

/-- R83: `CALL nnn` pushes the `pc` it sees, which is already the return address, and jumps; it never fails, however deep
the stack (decision D11, assumption 11). -/
def Obligations.CallPushesAndJumps : Prop :=
  ∀ (s : State) (nnn : BitVec 12),
    ∃ t, exec (.call nnn) s = .next t ∧ t.stack = s.pc :: s.stack ∧ t.pc.toNat = nnn.toNat ∧
      ChangesOnly [.pc, .stack] s t

/-! ## Immediate instructions (spec/42_immediate.md) -/

/-- R90: the words 6xnn are `LD Vx, nn`, which sets `V[x]` to nn and changes nothing else, VF included unless x is F. -/
def Obligations.LdVxNnLoadsConstant : Prop :=
  ∀ (x : Reg) (nn : Byte), decode (BitVec.ofNat 16 (0x6000 + 256 * x.val + nn.toNat)) = .ldVxNn x nn ∧
    ∀ s : State, ∃ t, exec (.ldVxNn x nn) s = .next t ∧ t.readV x = nn ∧ ChangesOnly [.reg x] s t

/-- R91: the words 7xnn are `ADD Vx, nn`, which stores the sum when it is at most 255 and otherwise leaves `V[x]` as it was;
no flag in either case. -/
def Obligations.AddVxNnStoresOnlyFittingSum : Prop :=
  ∀ (x : Reg) (nn : Byte), decode (BitVec.ofNat 16 (0x7000 + 256 * x.val + nn.toNat)) = .addVxNn x nn ∧
    ∀ s : State, ∃ t, exec (.addVxNn x nn) s = .next t ∧
      (t.readV x).toNat =
        (if (s.readV x).toNat + nn.toNat ≤ 255 then (s.readV x).toNat + nn.toNat else (s.readV x).toNat) ∧
      ChangesOnly [.reg x] s t

/-- R92: `LD I, nnn` sets `I` to nnn; bits 15 to 12 become 0. -/
def Obligations.LdISetsIndex : Prop :=
  ∀ (s : State) (nnn : BitVec 12), ∃ t, exec (.ldINnn nnn) s = .next t ∧ t.i.toNat = nnn.toNat ∧ ChangesOnly [.index] s t

/-! ## Arithmetic/logic class (spec/43_alu.md) -/

/-- R100: `LD Vx, Vy` copies `V[y]`, read before the write, into `V[x]`; no flag. -/
def Obligations.LdVxVyCopies : Prop :=
  ∀ (x y : Reg) (s : State), ∃ t, exec (.ldVxVy x y) s = .next t ∧ t.readV x = s.readV y ∧ ChangesOnly [.reg x] s t

/-- R101, R102, R103: `OR`, `AND`, `XOR` put the bitwise result of the old values into `V[x]` and write no flag (decision
D19, assumption 18). -/
def Obligations.BitwiseResults : Prop :=
  ∀ (x y : Reg) (s : State),
    (∃ t, exec (.or x y) s = .next t ∧ t.readV x = s.readV x ||| s.readV y ∧ ChangesOnly [.reg x] s t) ∧
    (∃ t, exec (.and x y) s = .next t ∧ t.readV x = s.readV x &&& s.readV y ∧ ChangesOnly [.reg x] s t) ∧
    (∃ t, exec (.xor x y) s = .next t ∧ t.readV x = s.readV x ^^^ s.readV y ∧ ChangesOnly [.reg x] s t)

/-- R104: the words 8xy4 are `ADD Vx, Vy`: VF becomes 1 when the sum exceeds 255 and 0 otherwise, also when x is F; the sum
is stored only when it fits. -/
def Obligations.AddVxVyResultAndCarry : Prop :=
  ∀ (x y : Reg), decode (BitVec.ofNat 16 (0x8004 + 256 * x.val + 16 * y.val)) = .addVxVy x y ∧
    ∀ s : State, ∃ t, exec (.addVxVy x y) s = .next t ∧
      t.readV Reg.vf = (if 255 < (s.readV x).toNat + (s.readV y).toNat then 1 else 0) ∧
      (x ≠ Reg.vf → (t.readV x).toNat =
        if 255 < (s.readV x).toNat + (s.readV y).toNat then (s.readV x).toNat
        else (s.readV x).toNat + (s.readV y).toNat) ∧
      ChangesOnly [.reg x, .reg Reg.vf] s t

/-- R105: `SUB Vx, Vy`: on borrow (vy > vx) VF becomes 0 and `V[x]` is unchanged (decision D16, assumption 15); otherwise
the exact difference is stored and VF becomes 1. With x = F the flag remains (decision D6, assumption 5). -/
def Obligations.SubResultAndFlag : Prop :=
  ∀ (x y : Reg) (s : State), ∃ t, exec (.sub x y) s = .next t ∧
    t.readV Reg.vf = (if (s.readV x).toNat < (s.readV y).toNat then 0 else 1) ∧
    (x ≠ Reg.vf → (t.readV x).toNat =
      if (s.readV x).toNat < (s.readV y).toNat then (s.readV x).toNat else (s.readV x).toNat - (s.readV y).toNat) ∧
    ChangesOnly [.reg x, .reg Reg.vf] s t

/-- R106: `SUBN Vx, Vy`: on borrow (vx > vy) VF becomes 0 and `V[x]` is unchanged; otherwise vy - vx goes into `V[x]` and VF
becomes 1 (decisions D16 and D21, assumption 15; D6, assumption 5). -/
def Obligations.SubnResultAndFlag : Prop :=
  ∀ (x y : Reg) (s : State), ∃ t, exec (.subn x y) s = .next t ∧
    t.readV Reg.vf = (if (s.readV y).toNat < (s.readV x).toNat then 0 else 1) ∧
    (x ≠ Reg.vf → (t.readV x).toNat =
      if (s.readV y).toNat < (s.readV x).toNat then (s.readV x).toNat else (s.readV y).toNat - (s.readV x).toNat) ∧
    ChangesOnly [.reg x, .reg Reg.vf] s t

/-- R107: `SHR Vx, Vy`: `V[x]` becomes half of the old `V[y]`, rounded down (decision D17, assumption 16), and VF bit 0 of
the old `V[y]`, which remains when x is F (decision D6, assumption 5). -/
def Obligations.ShrResultAndFlag : Prop :=
  ∀ (x y : Reg) (s : State), ∃ t, exec (.shr x y) s = .next t ∧
    (t.readV Reg.vf).toNat = (s.readV y).toNat % 2 ∧
    (x ≠ Reg.vf → (t.readV x).toNat = (s.readV y).toNat / 2) ∧
    ChangesOnly [.reg x, .reg Reg.vf] s t

/-- R108: `SHL Vx, Vy`: `V[x]` becomes twice the old `V[y]` modulo 256 (decision D17, assumption 16), and VF bit 0, not
bit 7, of the old `V[y]`, which remains when x is F (decision D6, assumption 5). -/
def Obligations.ShlResultAndFlag : Prop :=
  ∀ (x y : Reg) (s : State), ∃ t, exec (.shl x y) s = .next t ∧
    (t.readV Reg.vf).toNat = (s.readV y).toNat % 2 ∧
    (x ≠ Reg.vf → (t.readV x).toNat = 2 * (s.readV y).toNat % 256) ∧
    ChangesOnly [.reg x, .reg Reg.vf] s t

/-! ## The draw instruction (spec/44_draw.md) -/

/-- R120, R121, R122, R124, R126: `DRW Vx, Vy, n` toggles exactly the pixels S that the sprite's 1-bits name: row r is the
byte at `(I + r) mod 4096`, its bit `7 - b` is the pixel b places right of `V[x] mod 64` and r rows below `V[y] mod 32`,
wrapped at both edges. VF becomes 1 when a pixel of S was on and 0 otherwise, also when x or y is F; `redraw` becomes true;
nothing else changes (bit 7 leftmost is decision D7, assumption 6; the address reduction D2, assumption 3). -/
def Obligations.DrwTogglesSpriteSet : Prop :=
  ∀ (x y : Reg) (n : Fin 16) (s : State), ∃ (S : Fin 64 → Fin 32 → Prop) (t : State),
    (∀ px py, S px py ↔ ∃ r < n.val, ∃ b < 8,
      (s.mem.get ((s.i.toNat + r) % 4096)).getLsbD (7 - b) = true ∧
      px.val = ((s.readV x).toNat % 64 + b) % 64 ∧ py.val = ((s.readV y).toNat % 32 + r) % 32) ∧
    exec (.drw x y n) s = .next t ∧
    (∀ px py, S px py → t.pixel px py = !s.pixel px py) ∧
    (∀ px py, ¬S px py → t.pixel px py = s.pixel px py) ∧
    ((∃ px py, S px py ∧ s.pixel px py = true) → t.readV Reg.vf = 1) ∧
    ((¬∃ px py, S px py ∧ s.pixel px py = true) → t.readV Reg.vf = 0) ∧
    t.redraw = true ∧ ChangesOnly [.reg Reg.vf, .screen, .redraw] s t

/-- R123: `DRW Vx, Vy, 0` draws nothing, clears VF and sets `redraw` (decision D18, assumption 17). -/
def Obligations.DrwOfNoRows : Prop :=
  ∀ (x y : Reg) (s : State), ∃ t, exec (.drw x y 0) s = .next t ∧ t.readV Reg.vf = 0 ∧ t.redraw = true ∧
    ChangesOnly [.reg Reg.vf, .redraw] s t

/-- R127: the same sprite drawn twice at the same place restores the picture, and the second draw reports a collision
exactly when the first turned a pixel on. Between the draws anything but the picture, the coordinates, `I` and memory may
change, so the coordinates may be restored when x or y is F. -/
def Obligations.DoubleDrawRestoresPicture : Prop :=
  ∀ (x y : Reg) (n : Fin 16) (s t t' : State), exec (.drw x y n) s = .next t →
    Part.screen.same t t' → (Part.reg x).same s t' → (Part.reg y).same s t' → Part.index.same s t' →
    Part.memory.same s t' →
    ∃ u, exec (.drw x y n) t' = .next u ∧ (∀ px py, u.pixel px py = s.pixel px py) ∧
      (u.readV Reg.vf = 1 ↔ ∃ px py, s.pixel px py = false ∧ t.pixel px py = true)

/-! ## Unmatched words (spec/45_unmatched_noop.md) -/

/-- R130: a word that selects no row of the opcode map is a no-op: the cycle advances `pc`, steps the timers, changes
nothing else, and `execute_cycle` answers the host `Ok`. -/
def Obligations.UnmatchedWordIsNoOp : Prop :=
  (∀ (w : Word) (s : State), exec (.unmatched w) s = .next s) ∧
  ∀ (font : Config.Font) (s : State), s.fault = none → (∀ r ∈ opcodeTable, s.fetchWord &&& r.mask ≠ r.pattern) →
    ∃ t, step s = .next t ∧ t.pc = s.pc + 2 ∧ t.dt.toNat = s.dt.toNat - 1 ∧ t.st.toNat = s.st.toNat - 1 ∧
      ChangesOnly [.pc, .delayTimer, .soundTimer] s t ∧ HostOp.executeCycle.apply font s = .next (t, .cycle .ok)

/-! ## Reset and the host (spec/70_reset_and_hazards.md, spec/80_host_interface.md) -/

/-- R22, R160: the state after reset, and the host operation `reset` leads to it from every state of the machine with the
default FONT. `pc` is the source's; the other values are decision D9 (assumption 8) and the font bytes decision D8
(assumption 7). -/
def Obligations.ResetStateAsListed : Prop :=
  (∀ s : State, HostOp.reset.apply Config.defaultFont s = .next (State.reset, .none)) ∧
  (∀ r, State.reset.readV r = 0) ∧ State.reset.pc = 0x0200 ∧ State.reset.i = 0 ∧ State.reset.stack = [] ∧
  State.reset.dt = 0 ∧ State.reset.st = 0 ∧ (∀ px py, State.reset.pixel px py = false) ∧
  State.reset.redraw = false ∧ State.reset.fault = none ∧
  (∀ a, a < 80 → State.reset.memRead a = Config.defaultFontRows.getD a 0) ∧
  (∀ a, 80 ≤ a → a < 4096 → State.reset.memRead a = 0)

/-- R37, R160: on the machine with any 80 bytes as FONT, the host operation `reset` leads from every state to one where they
stand at 0x000 to 0x04F and everything else is as after the plain reset. -/
def Obligations.ResetWithAnyFont : Prop :=
  ∀ (font : Config.Font) (s : State), ∃ t, HostOp.reset.apply font s = .next (t, .none) ∧ Memory.wf t.mem ∧
    ChangesOnly [.memory] State.reset t ∧
    (∀ (a : Nat) (h : a < 80), t.memRead a = font[a]) ∧
    (∀ a, 80 ≤ a → a < 4096 → t.memRead a = 0)

/-- R180, R182: the host operation `execute_cycle` is the step, and its answer is `Halted` with the latched fault when the
core was halted before it, `Faulted` when this cycle latched a fault, and `Ok` otherwise (the result values are decision D10,
assumptions 9 and 10). -/
def Obligations.HostExecuteCycleIsStep : Prop :=
  ∀ (font : Config.Font) (s : State), ∃ t, step s = .next t ∧
    HostOp.executeCycle.apply font s = .next (t, .cycle (
      match s.fault, t.fault with
      | some f, _ => .halted f
      | none, some f => .faulted f
      | none, none => .ok))

/-- R181: a `load` that fits copies its bytes to 0x200 up, changes no other byte and no other state (what else it leaves
alone is decision D14, assumption 14). -/
def Obligations.LoadCopiesBytes : Prop :=
  ∀ (font : Config.Font) (s : State) (bytes : List Byte), Memory.wf s.mem → bytes.length ≤ 3584 →
    ∃ t, (HostOp.load bytes).apply font s = .next (t, .load .ok) ∧
      (∀ j, j < bytes.length → t.memRead (0x200 + j) = bytes.getD j 0) ∧
      (∀ a, a < 4096 → a < 0x200 ∨ 0x200 + bytes.length ≤ a → t.memRead a = s.memRead a) ∧
      ChangesOnly [.memory] s t ∧ Memory.wf t.mem

/-- R181: a `load` of more than 3584 bytes is refused as a whole: no state changes. -/
def Obligations.LoadTooLargeChangesNothing : Prop :=
  ∀ (font : Config.Font) (s : State) (bytes : List Byte), 3584 < bytes.length →
    (HostOp.load bytes).apply font s = .next (s, .load .loadTooLarge)

/-- R184, R185: `needs_redraw` answers the flag and changes nothing; `consume_redraw` answers it and clears it, and changes
nothing else (decision D12, assumption 12). -/
def Obligations.RedrawFlagProtocol : Prop :=
  ∀ (font : Config.Font) (s : State), HostOp.needsRedraw.apply font s = .next (s, .flag s.redraw) ∧
    ∃ t, HostOp.consumeRedraw.apply font s = .next (t, .flag s.redraw) ∧ t.redraw = false ∧ ChangesOnly [.redraw] s t

/-- R183: the snapshot is the 2048 pixels row by row, element py * 64 + px (decision D20, assumption 19), and changes
nothing. -/
def Obligations.SnapshotIsRowMajor : Prop :=
  ∀ (font : Config.Font) (s : State), ∃ pixels,
    HostOp.framebufferSnapshot.apply font s = .next (s, .grid pixels) ∧ pixels.length = 2048 ∧
    ∀ (px : Fin 64) (py : Fin 32), pixels[py.val * 64 + px.val]? = some (s.pixel px py)
end

