-- ==== Sys2Proof/Laws/State.lean ====
section
/-! SUPPORT. One lemma per field per update of the state, true by rfl, so that no proof unfolds a record update; and the same
for the three views (a register, a byte of memory, a pixel) of the fields an update does not touch. -/

namespace Sys2Proof.Machine

/-! ## memWrite -/

@[simp] theorem State.memWrite_v (s : State) (addr : Nat) (b : Byte) : (s.memWrite addr b).v = s.v := rfl
@[simp] theorem State.memWrite_pc (s : State) (addr : Nat) (b : Byte) : (s.memWrite addr b).pc = s.pc := rfl
@[simp] theorem State.memWrite_i (s : State) (addr : Nat) (b : Byte) : (s.memWrite addr b).i = s.i := rfl
@[simp] theorem State.memWrite_stack (s : State) (addr : Nat) (b : Byte) : (s.memWrite addr b).stack = s.stack := rfl
@[simp] theorem State.memWrite_dt (s : State) (addr : Nat) (b : Byte) : (s.memWrite addr b).dt = s.dt := rfl
@[simp] theorem State.memWrite_st (s : State) (addr : Nat) (b : Byte) : (s.memWrite addr b).st = s.st := rfl
@[simp] theorem State.memWrite_redraw (s : State) (addr : Nat) (b : Byte) : (s.memWrite addr b).redraw = s.redraw := rfl
@[simp] theorem State.memWrite_fault (s : State) (addr : Nat) (b : Byte) : (s.memWrite addr b).fault = s.fault := rfl
@[simp] theorem State.memWrite_fb (s : State) (addr : Nat) (b : Byte) : (s.memWrite addr b).fb = s.fb := rfl
@[simp] theorem State.memWrite_mem (s : State) (addr : Nat) (b : Byte) : (s.memWrite addr b).mem = s.mem.set (reduceAddr addr) b := rfl
@[simp] theorem State.memWrite_readV (s : State) (addr : Nat) (b : Byte) (r' : Reg) : (s.memWrite addr b).readV r' = s.readV r' := rfl
@[simp] theorem State.memWrite_pixel (s : State) (addr : Nat) (b : Byte) (px : Fin 64) (py : Fin 32) : (s.memWrite addr b).pixel px py = s.pixel px py := rfl

/-! ## writeV -/

@[simp] theorem State.writeV_v (s : State) (r : Reg) (b : Byte) : (s.writeV r b).v = s.v.set r b := rfl
@[simp] theorem State.writeV_pc (s : State) (r : Reg) (b : Byte) : (s.writeV r b).pc = s.pc := rfl
@[simp] theorem State.writeV_i (s : State) (r : Reg) (b : Byte) : (s.writeV r b).i = s.i := rfl
@[simp] theorem State.writeV_stack (s : State) (r : Reg) (b : Byte) : (s.writeV r b).stack = s.stack := rfl
@[simp] theorem State.writeV_dt (s : State) (r : Reg) (b : Byte) : (s.writeV r b).dt = s.dt := rfl
@[simp] theorem State.writeV_st (s : State) (r : Reg) (b : Byte) : (s.writeV r b).st = s.st := rfl
@[simp] theorem State.writeV_redraw (s : State) (r : Reg) (b : Byte) : (s.writeV r b).redraw = s.redraw := rfl
@[simp] theorem State.writeV_fault (s : State) (r : Reg) (b : Byte) : (s.writeV r b).fault = s.fault := rfl
@[simp] theorem State.writeV_fb (s : State) (r : Reg) (b : Byte) : (s.writeV r b).fb = s.fb := rfl
@[simp] theorem State.writeV_mem (s : State) (r : Reg) (b : Byte) : (s.writeV r b).mem = s.mem := rfl
@[simp] theorem State.writeV_memRead (s : State) (r : Reg) (b : Byte) (a' : Nat) : (s.writeV r b).memRead a' = s.memRead a' := rfl
@[simp] theorem State.writeV_pixel (s : State) (r : Reg) (b : Byte) (px : Fin 64) (py : Fin 32) : (s.writeV r b).pixel px py = s.pixel px py := rfl

/-! ## writeFlag -/

@[simp] theorem State.writeFlag_v (s : State) (flag : Bool) : (s.writeFlag flag).v = s.v.set Reg.vf (flagByte flag) := rfl
@[simp] theorem State.writeFlag_pc (s : State) (flag : Bool) : (s.writeFlag flag).pc = s.pc := rfl
@[simp] theorem State.writeFlag_i (s : State) (flag : Bool) : (s.writeFlag flag).i = s.i := rfl
@[simp] theorem State.writeFlag_stack (s : State) (flag : Bool) : (s.writeFlag flag).stack = s.stack := rfl
@[simp] theorem State.writeFlag_dt (s : State) (flag : Bool) : (s.writeFlag flag).dt = s.dt := rfl
@[simp] theorem State.writeFlag_st (s : State) (flag : Bool) : (s.writeFlag flag).st = s.st := rfl
@[simp] theorem State.writeFlag_redraw (s : State) (flag : Bool) : (s.writeFlag flag).redraw = s.redraw := rfl
@[simp] theorem State.writeFlag_fault (s : State) (flag : Bool) : (s.writeFlag flag).fault = s.fault := rfl
@[simp] theorem State.writeFlag_fb (s : State) (flag : Bool) : (s.writeFlag flag).fb = s.fb := rfl
@[simp] theorem State.writeFlag_mem (s : State) (flag : Bool) : (s.writeFlag flag).mem = s.mem := rfl
@[simp] theorem State.writeFlag_memRead (s : State) (flag : Bool) (a' : Nat) : (s.writeFlag flag).memRead a' = s.memRead a' := rfl
@[simp] theorem State.writeFlag_pixel (s : State) (flag : Bool) (px : Fin 64) (py : Fin 32) : (s.writeFlag flag).pixel px py = s.pixel px py := rfl

/-! ## writePc -/

@[simp] theorem State.writePc_v (s : State) (target : Word) : (s.writePc target).v = s.v := rfl
@[simp] theorem State.writePc_pc (s : State) (target : Word) : (s.writePc target).pc = target := rfl
@[simp] theorem State.writePc_i (s : State) (target : Word) : (s.writePc target).i = s.i := rfl
@[simp] theorem State.writePc_stack (s : State) (target : Word) : (s.writePc target).stack = s.stack := rfl
@[simp] theorem State.writePc_dt (s : State) (target : Word) : (s.writePc target).dt = s.dt := rfl
@[simp] theorem State.writePc_st (s : State) (target : Word) : (s.writePc target).st = s.st := rfl
@[simp] theorem State.writePc_redraw (s : State) (target : Word) : (s.writePc target).redraw = s.redraw := rfl
@[simp] theorem State.writePc_fault (s : State) (target : Word) : (s.writePc target).fault = s.fault := rfl
@[simp] theorem State.writePc_fb (s : State) (target : Word) : (s.writePc target).fb = s.fb := rfl
@[simp] theorem State.writePc_mem (s : State) (target : Word) : (s.writePc target).mem = s.mem := rfl
@[simp] theorem State.writePc_readV (s : State) (target : Word) (r' : Reg) : (s.writePc target).readV r' = s.readV r' := rfl
@[simp] theorem State.writePc_memRead (s : State) (target : Word) (a' : Nat) : (s.writePc target).memRead a' = s.memRead a' := rfl
@[simp] theorem State.writePc_pixel (s : State) (target : Word) (px : Fin 64) (py : Fin 32) : (s.writePc target).pixel px py = s.pixel px py := rfl

/-! ## advancePc -/

@[simp] theorem State.advancePc_v (s : State) : (s.advancePc).v = s.v := rfl
@[simp] theorem State.advancePc_pc (s : State) : (s.advancePc).pc = s.pc + 2 := rfl
@[simp] theorem State.advancePc_i (s : State) : (s.advancePc).i = s.i := rfl
@[simp] theorem State.advancePc_stack (s : State) : (s.advancePc).stack = s.stack := rfl
@[simp] theorem State.advancePc_dt (s : State) : (s.advancePc).dt = s.dt := rfl
@[simp] theorem State.advancePc_st (s : State) : (s.advancePc).st = s.st := rfl
@[simp] theorem State.advancePc_redraw (s : State) : (s.advancePc).redraw = s.redraw := rfl
@[simp] theorem State.advancePc_fault (s : State) : (s.advancePc).fault = s.fault := rfl
@[simp] theorem State.advancePc_fb (s : State) : (s.advancePc).fb = s.fb := rfl
@[simp] theorem State.advancePc_mem (s : State) : (s.advancePc).mem = s.mem := rfl
@[simp] theorem State.advancePc_readV (s : State) (r' : Reg) : (s.advancePc).readV r' = s.readV r' := rfl
@[simp] theorem State.advancePc_memRead (s : State) (a' : Nat) : (s.advancePc).memRead a' = s.memRead a' := rfl
@[simp] theorem State.advancePc_pixel (s : State) (px : Fin 64) (py : Fin 32) : (s.advancePc).pixel px py = s.pixel px py := rfl

/-! ## writeI -/

@[simp] theorem State.writeI_v (s : State) (w : Word) : (s.writeI w).v = s.v := rfl
@[simp] theorem State.writeI_pc (s : State) (w : Word) : (s.writeI w).pc = s.pc := rfl
@[simp] theorem State.writeI_i (s : State) (w : Word) : (s.writeI w).i = w := rfl
@[simp] theorem State.writeI_stack (s : State) (w : Word) : (s.writeI w).stack = s.stack := rfl
@[simp] theorem State.writeI_dt (s : State) (w : Word) : (s.writeI w).dt = s.dt := rfl
@[simp] theorem State.writeI_st (s : State) (w : Word) : (s.writeI w).st = s.st := rfl
@[simp] theorem State.writeI_redraw (s : State) (w : Word) : (s.writeI w).redraw = s.redraw := rfl
@[simp] theorem State.writeI_fault (s : State) (w : Word) : (s.writeI w).fault = s.fault := rfl
@[simp] theorem State.writeI_fb (s : State) (w : Word) : (s.writeI w).fb = s.fb := rfl
@[simp] theorem State.writeI_mem (s : State) (w : Word) : (s.writeI w).mem = s.mem := rfl
@[simp] theorem State.writeI_readV (s : State) (w : Word) (r' : Reg) : (s.writeI w).readV r' = s.readV r' := rfl
@[simp] theorem State.writeI_memRead (s : State) (w : Word) (a' : Nat) : (s.writeI w).memRead a' = s.memRead a' := rfl
@[simp] theorem State.writeI_pixel (s : State) (w : Word) (px : Fin 64) (py : Fin 32) : (s.writeI w).pixel px py = s.pixel px py := rfl

/-! ## push -/

@[simp] theorem State.push_v (s : State) (w : Word) : (s.push w).v = s.v := rfl
@[simp] theorem State.push_pc (s : State) (w : Word) : (s.push w).pc = s.pc := rfl
@[simp] theorem State.push_i (s : State) (w : Word) : (s.push w).i = s.i := rfl
@[simp] theorem State.push_stack (s : State) (w : Word) : (s.push w).stack = w :: s.stack := rfl
@[simp] theorem State.push_dt (s : State) (w : Word) : (s.push w).dt = s.dt := rfl
@[simp] theorem State.push_st (s : State) (w : Word) : (s.push w).st = s.st := rfl
@[simp] theorem State.push_redraw (s : State) (w : Word) : (s.push w).redraw = s.redraw := rfl
@[simp] theorem State.push_fault (s : State) (w : Word) : (s.push w).fault = s.fault := rfl
@[simp] theorem State.push_fb (s : State) (w : Word) : (s.push w).fb = s.fb := rfl
@[simp] theorem State.push_mem (s : State) (w : Word) : (s.push w).mem = s.mem := rfl
@[simp] theorem State.push_readV (s : State) (w : Word) (r' : Reg) : (s.push w).readV r' = s.readV r' := rfl
@[simp] theorem State.push_memRead (s : State) (w : Word) (a' : Nat) : (s.push w).memRead a' = s.memRead a' := rfl
@[simp] theorem State.push_pixel (s : State) (w : Word) (px : Fin 64) (py : Fin 32) : (s.push w).pixel px py = s.pixel px py := rfl

/-! ## dropTop -/

@[simp] theorem State.dropTop_v (s : State) : (s.dropTop).v = s.v := rfl
@[simp] theorem State.dropTop_pc (s : State) : (s.dropTop).pc = s.pc := rfl
@[simp] theorem State.dropTop_i (s : State) : (s.dropTop).i = s.i := rfl
@[simp] theorem State.dropTop_stack (s : State) : (s.dropTop).stack = s.stack.tail := rfl
@[simp] theorem State.dropTop_dt (s : State) : (s.dropTop).dt = s.dt := rfl
@[simp] theorem State.dropTop_st (s : State) : (s.dropTop).st = s.st := rfl
@[simp] theorem State.dropTop_redraw (s : State) : (s.dropTop).redraw = s.redraw := rfl
@[simp] theorem State.dropTop_fault (s : State) : (s.dropTop).fault = s.fault := rfl
@[simp] theorem State.dropTop_fb (s : State) : (s.dropTop).fb = s.fb := rfl
@[simp] theorem State.dropTop_mem (s : State) : (s.dropTop).mem = s.mem := rfl
@[simp] theorem State.dropTop_readV (s : State) (r' : Reg) : (s.dropTop).readV r' = s.readV r' := rfl
@[simp] theorem State.dropTop_memRead (s : State) (a' : Nat) : (s.dropTop).memRead a' = s.memRead a' := rfl
@[simp] theorem State.dropTop_pixel (s : State) (px : Fin 64) (py : Fin 32) : (s.dropTop).pixel px py = s.pixel px py := rfl

/-! ## writeFb -/

@[simp] theorem State.writeFb_v (s : State) (fb : Framebuffer) : (s.writeFb fb).v = s.v := rfl
@[simp] theorem State.writeFb_pc (s : State) (fb : Framebuffer) : (s.writeFb fb).pc = s.pc := rfl
@[simp] theorem State.writeFb_i (s : State) (fb : Framebuffer) : (s.writeFb fb).i = s.i := rfl
@[simp] theorem State.writeFb_stack (s : State) (fb : Framebuffer) : (s.writeFb fb).stack = s.stack := rfl
@[simp] theorem State.writeFb_dt (s : State) (fb : Framebuffer) : (s.writeFb fb).dt = s.dt := rfl
@[simp] theorem State.writeFb_st (s : State) (fb : Framebuffer) : (s.writeFb fb).st = s.st := rfl
@[simp] theorem State.writeFb_redraw (s : State) (fb : Framebuffer) : (s.writeFb fb).redraw = s.redraw := rfl
@[simp] theorem State.writeFb_fault (s : State) (fb : Framebuffer) : (s.writeFb fb).fault = s.fault := rfl
@[simp] theorem State.writeFb_fb (s : State) (fb : Framebuffer) : (s.writeFb fb).fb = fb := rfl
@[simp] theorem State.writeFb_mem (s : State) (fb : Framebuffer) : (s.writeFb fb).mem = s.mem := rfl
@[simp] theorem State.writeFb_readV (s : State) (fb : Framebuffer) (r' : Reg) : (s.writeFb fb).readV r' = s.readV r' := rfl
@[simp] theorem State.writeFb_memRead (s : State) (fb : Framebuffer) (a' : Nat) : (s.writeFb fb).memRead a' = s.memRead a' := rfl

/-! ## writeRedraw -/

@[simp] theorem State.writeRedraw_v (s : State) (b : Bool) : (s.writeRedraw b).v = s.v := rfl
@[simp] theorem State.writeRedraw_pc (s : State) (b : Bool) : (s.writeRedraw b).pc = s.pc := rfl
@[simp] theorem State.writeRedraw_i (s : State) (b : Bool) : (s.writeRedraw b).i = s.i := rfl
@[simp] theorem State.writeRedraw_stack (s : State) (b : Bool) : (s.writeRedraw b).stack = s.stack := rfl
@[simp] theorem State.writeRedraw_dt (s : State) (b : Bool) : (s.writeRedraw b).dt = s.dt := rfl
@[simp] theorem State.writeRedraw_st (s : State) (b : Bool) : (s.writeRedraw b).st = s.st := rfl
@[simp] theorem State.writeRedraw_redraw (s : State) (b : Bool) : (s.writeRedraw b).redraw = b := rfl
@[simp] theorem State.writeRedraw_fault (s : State) (b : Bool) : (s.writeRedraw b).fault = s.fault := rfl
@[simp] theorem State.writeRedraw_fb (s : State) (b : Bool) : (s.writeRedraw b).fb = s.fb := rfl
@[simp] theorem State.writeRedraw_mem (s : State) (b : Bool) : (s.writeRedraw b).mem = s.mem := rfl
@[simp] theorem State.writeRedraw_readV (s : State) (b : Bool) (r' : Reg) : (s.writeRedraw b).readV r' = s.readV r' := rfl
@[simp] theorem State.writeRedraw_memRead (s : State) (b : Bool) (a' : Nat) : (s.writeRedraw b).memRead a' = s.memRead a' := rfl
@[simp] theorem State.writeRedraw_pixel (s : State) (b : Bool) (px : Fin 64) (py : Fin 32) : (s.writeRedraw b).pixel px py = s.pixel px py := rfl

/-! ## timerStep -/

@[simp] theorem State.timerStep_v (s : State) : (s.timerStep).v = s.v := rfl
@[simp] theorem State.timerStep_pc (s : State) : (s.timerStep).pc = s.pc := rfl
@[simp] theorem State.timerStep_i (s : State) : (s.timerStep).i = s.i := rfl
@[simp] theorem State.timerStep_stack (s : State) : (s.timerStep).stack = s.stack := rfl
@[simp] theorem State.timerStep_dt (s : State) : (s.timerStep).dt = countDown s.dt := rfl
@[simp] theorem State.timerStep_st (s : State) : (s.timerStep).st = countDown s.st := rfl
@[simp] theorem State.timerStep_redraw (s : State) : (s.timerStep).redraw = s.redraw := rfl
@[simp] theorem State.timerStep_fault (s : State) : (s.timerStep).fault = s.fault := rfl
@[simp] theorem State.timerStep_fb (s : State) : (s.timerStep).fb = s.fb := rfl
@[simp] theorem State.timerStep_mem (s : State) : (s.timerStep).mem = s.mem := rfl
@[simp] theorem State.timerStep_readV (s : State) (r' : Reg) : (s.timerStep).readV r' = s.readV r' := rfl
@[simp] theorem State.timerStep_memRead (s : State) (a' : Nat) : (s.timerStep).memRead a' = s.memRead a' := rfl
@[simp] theorem State.timerStep_pixel (s : State) (px : Fin 64) (py : Fin 32) : (s.timerStep).pixel px py = s.pixel px py := rfl

/-! ## raiseStackUnderflow -/

@[simp] theorem State.raiseStackUnderflow_v (s : State) (a : Word) : (s.raiseStackUnderflow a).v = s.v := rfl
@[simp] theorem State.raiseStackUnderflow_pc (s : State) (a : Word) : (s.raiseStackUnderflow a).pc = s.pc := rfl
@[simp] theorem State.raiseStackUnderflow_i (s : State) (a : Word) : (s.raiseStackUnderflow a).i = s.i := rfl
@[simp] theorem State.raiseStackUnderflow_stack (s : State) (a : Word) : (s.raiseStackUnderflow a).stack = s.stack := rfl
@[simp] theorem State.raiseStackUnderflow_dt (s : State) (a : Word) : (s.raiseStackUnderflow a).dt = s.dt := rfl
@[simp] theorem State.raiseStackUnderflow_st (s : State) (a : Word) : (s.raiseStackUnderflow a).st = s.st := rfl
@[simp] theorem State.raiseStackUnderflow_redraw (s : State) (a : Word) : (s.raiseStackUnderflow a).redraw = s.redraw := rfl
@[simp] theorem State.raiseStackUnderflow_fault (s : State) (a : Word) : (s.raiseStackUnderflow a).fault = some (.stackUnderflow a) := rfl
@[simp] theorem State.raiseStackUnderflow_fb (s : State) (a : Word) : (s.raiseStackUnderflow a).fb = s.fb := rfl
@[simp] theorem State.raiseStackUnderflow_mem (s : State) (a : Word) : (s.raiseStackUnderflow a).mem = s.mem := rfl
@[simp] theorem State.raiseStackUnderflow_readV (s : State) (a : Word) (r' : Reg) : (s.raiseStackUnderflow a).readV r' = s.readV r' := rfl
@[simp] theorem State.raiseStackUnderflow_memRead (s : State) (a : Word) (a' : Nat) : (s.raiseStackUnderflow a).memRead a' = s.memRead a' := rfl
@[simp] theorem State.raiseStackUnderflow_pixel (s : State) (a : Word) (px : Fin 64) (py : Fin 32) : (s.raiseStackUnderflow a).pixel px py = s.pixel px py := rfl

end Sys2Proof.Machine
end

