-- ==== Sys2Proof/Laws/Cycle.lean ====
section
/-! SUPPORT. What one cycle can do, said once (spec/40_cycle.md R70, R71). -/

namespace Sys2Proof.Machine

/-- A halted core steps to itself (R71). -/
theorem step_of_halted {s : State} (h : s.halted = true) : step s = .next s := by
  simp [step, executeCycle, h]

/-- A core that is not halted runs the instruction it fetches. -/
theorem step_of_not_halted {s : State} (h : s.halted = false) : step s = runInstr s := by
  simp [step, executeCycle, h]

/-- Everything a step that answers a next state can have done: nothing, on a halted core; or one instruction run on the
advanced state, and the end of the cycle. -/
theorem step_next {s t : State} (h : step s = .next t) :
    (s.halted = true ∧ t = s) ∨
    (s.halted = false ∧ ∃ u, exec (decode s.fetchWord) s.advancePc = .next u ∧ t = u.finishCycle) := by
  cases hs : s.halted with
  | true =>
    rw [step_of_halted hs] at h
    exact .inl ⟨rfl, (Host.Outcome.next.inj h).symm⟩
  | false =>
    rw [step_of_not_halted hs, runInstr] at h
    split at h
    · rename_i u hu
      exact .inr ⟨rfl, u, hu, (Host.Outcome.next.inj h).symm⟩
    · cases h
    · cases h

/-- The end of a cycle that faulted: nothing more (R74). -/
theorem State.finishCycle_of_halted {s : State} (h : s.halted = true) : s.finishCycle = s := by
  simp [State.finishCycle, h]

/-- The end of a cycle that did not fault: the timer step (R150). -/
theorem State.finishCycle_of_not_halted {s : State} (h : s.halted = false) : s.finishCycle = s.timerStep := by
  simp [State.finishCycle, h]

/-- The end of a cycle changes the two timers only. -/
theorem State.finishCycle_eq (s : State) :
    s.finishCycle = { s with dt := s.finishCycle.dt, st := s.finishCycle.st } := by
  unfold State.finishCycle
  split <;> rfl

/-- A timer step takes one off, floored at zero (R150). -/
theorem countDown_toNat (t : Byte) : (countDown t).toNat = t.toNat - 1 := by
  unfold countDown
  split
  · rename_i h
    have : t.toNat ≠ 0 := fun e => h (BitVec.eq_of_toNat_eq e)
    have := t.isLt
    rw [BitVec.toNat_sub]
    simp
    omega
  · rename_i h
    simp at h
    simp [h]

end Sys2Proof.Machine
end

