-- ==== Sys2Proof/Laws/Encoding.lean ====
section
/-! SUPPORT. The small lemmas of the encoding: what the decoder's fields read from each format of the encoder
(spec/30_encoding.md R51, R52), and which bits choose the row (R54, R55). -/

namespace Sys2Proof

/-- The class digit of a word, bits 15 to 12, read as a 4-bit field (R51). -/
abbrev classDigit (w : Word) : BitVec 4 := w.extractLsb' 12 4

/-- Two words with the same sixteen bits are the same. -/
theorem word_ext {w w' : Word} (h : ∀ i < 16, w.getLsbD i = w'.getLsbD i) : w = w' :=
  BitVec.eq_of_getLsbD_eq h

/-- The bits of a word written as a digit and twelve more bits. -/
theorem getLsbD_digits (d h : BitVec 4) (l : BitVec 8) (i : Nat) :
    BitVec.getLsbD (w := 16) (d ++ (h ++ l)) i =
      if i < 12 then (if i < 8 then l.getLsbD i else h.getLsbD (i - 8)) else d.getLsbD (i - 12) := by
  change BitVec.getLsbD (w := 4 + (4 + 8)) (d ++ (h ++ l)) i = _
  rw [BitVec.getLsbD_append, BitVec.getLsbD_append]

/-- Bits 11 to 8 masked away (R54): what is left is the class digit and the low byte. -/
theorem and_key (w : Word) : w &&& 0xF0FF = classDigit w ++ (0#4 ++ w.extractLsb' 0 8) := by
  apply word_ext
  intro i hi
  rw [getLsbD_digits]
  interval_cases i <;> simp

/-- No row of the opcode map looks at bits 11 to 8, the field `x`: the class digit and the low byte choose the row (R54,
R55). -/
theorem selectOp_key (w : Word) : selectOp w = selectOp (classDigit w ++ (0#4 ++ w.extractLsb' 0 8)) := by
  have hmask : ∀ r ∈ opcodeTable, (0xF0FF : Word) &&& r.mask = r.mask := by decide
  have hrow : ∀ r ∈ opcodeTable, r.selects w = r.selects (w &&& 0xF0FF) := fun r hr => by
    rw [OpcodeRow.selects, OpcodeRow.selects, BitVec.and_assoc, hmask r hr]
  have hfind : ∀ l : List OpcodeRow, (∀ r ∈ l, r.selects w = r.selects (w &&& 0xF0FF)) →
      l.find? (·.selects w) = l.find? (·.selects (w &&& 0xF0FF)) := by
    intro l hl
    induction l with
    | nil => rfl
    | cons r rest ih =>
      rw [List.find?_cons, List.find?_cons, hl r (by simp), ih fun q hq => hl q (by simp [hq])]
  rw [← and_key, selectOp, selectOp, hfind _ hrow]

/-! ## Format A -/

@[simp] theorem classDigit_encodeA (d : BitVec 4) (nnn : BitVec 12) : (encodeA d nnn).extractLsb' 12 4 = d :=
  BitVec.extractLsb'_append_eq_left

@[simp] theorem fieldNNN_encodeA (d : BitVec 4) (nnn : BitVec 12) : fieldNNN (encodeA d nnn) = nnn :=
  BitVec.extractLsb'_append_eq_right

/-! ## Format K -/

theorem getLsbD_encodeK (d : BitVec 4) (x : Reg) (nn : Byte) (i : Nat) :
    (encodeK d x nn).getLsbD i =
      if i < 8 then nn.getLsbD i
      else if i - 8 < 4 then (BitVec.ofFin (w := 4) x).getLsbD (i - 8) else d.getLsbD (i - 8 - 4) := by
  change BitVec.getLsbD (w := 4 + 4 + 8) (d ++ BitVec.ofFin (w := 4) x ++ nn) i = _
  rw [BitVec.getLsbD_append, BitVec.getLsbD_append]

@[simp] theorem classDigit_encodeK (d : BitVec 4) (x : Reg) (nn : Byte) : (encodeK d x nn).extractLsb' 12 4 = d := by
  ext i hi
  rw [BitVec.getElem_extractLsb', getLsbD_encodeK]
  interval_cases i <;> rfl

@[simp] theorem fieldX_encodeK (d : BitVec 4) (x : Reg) (nn : Byte) : fieldX (encodeK d x nn) = x := by
  have h : (encodeK d x nn).extractLsb' 8 4 = BitVec.ofFin (w := 4) x := by
    ext i hi
    rw [BitVec.getElem_extractLsb', getLsbD_encodeK]
    interval_cases i <;> rfl
  rw [fieldX, h]

@[simp] theorem fieldNN_encodeK (d : BitVec 4) (x : Reg) (nn : Byte) : fieldNN (encodeK d x nn) = nn :=
  BitVec.extractLsb'_append_eq_right

/-! ## Formats R and D -/

theorem getLsbD_encodeXY (d : BitVec 4) (x y : Reg) (n : BitVec 4) (i : Nat) :
    (encodeXY d x y n).getLsbD i =
      if i < 4 then n.getLsbD i
      else if i - 4 < 4 then (BitVec.ofFin (w := 4) y).getLsbD (i - 4)
      else if i - 4 - 4 < 4 then (BitVec.ofFin (w := 4) x).getLsbD (i - 4 - 4) else d.getLsbD (i - 4 - 4 - 4) := by
  change BitVec.getLsbD (w := 4 + 4 + 4 + 4) (d ++ BitVec.ofFin (w := 4) x ++ BitVec.ofFin (w := 4) y ++ n) i = _
  rw [BitVec.getLsbD_append, BitVec.getLsbD_append, BitVec.getLsbD_append]

@[simp] theorem classDigit_encodeXY (d : BitVec 4) (x y : Reg) (n : BitVec 4) :
    (encodeXY d x y n).extractLsb' 12 4 = d := by
  ext i hi
  rw [BitVec.getElem_extractLsb', getLsbD_encodeXY]
  interval_cases i <;> rfl

@[simp] theorem fieldX_encodeXY (d : BitVec 4) (x y : Reg) (n : BitVec 4) : fieldX (encodeXY d x y n) = x := by
  have h : (encodeXY d x y n).extractLsb' 8 4 = BitVec.ofFin (w := 4) x := by
    ext i hi
    rw [BitVec.getElem_extractLsb', getLsbD_encodeXY]
    interval_cases i <;> rfl
  rw [fieldX, h]

@[simp] theorem fieldY_encodeXY (d : BitVec 4) (x y : Reg) (n : BitVec 4) : fieldY (encodeXY d x y n) = y := by
  have h : (encodeXY d x y n).extractLsb' 4 4 = BitVec.ofFin (w := 4) y := by
    ext i hi
    rw [BitVec.getElem_extractLsb', getLsbD_encodeXY]
    interval_cases i <;> rfl
  rw [fieldY, h]

@[simp] theorem fieldN_encodeXY (d : BitVec 4) (x y : Reg) (n : BitVec 4) : fieldN (encodeXY d x y n) = n.toFin := by
  have h : (encodeXY d x y n).extractLsb' 0 4 = n := BitVec.extractLsb'_append_eq_right
  rw [fieldN, h]

theorem lowByte_encodeXY (d : BitVec 4) (x y : Reg) (n : BitVec 4) :
    (encodeXY d x y n).extractLsb' 0 8 = BitVec.ofFin (w := 4) y ++ n := by
  apply BitVec.eq_of_getLsbD_eq
  intro i hi
  change _ = BitVec.getLsbD (w := 4 + 4) (BitVec.ofFin (w := 4) y ++ n) i
  rw [BitVec.getLsbD_extractLsb', getLsbD_encodeXY, BitVec.getLsbD_append]
  interval_cases i <;> rfl

/-! ## Which row a format's word selects -/

/-- A class decided by its digit alone (R54): it is enough to look at the low byte. -/
theorem selectOp_of_class {w : Word} {d : BitVec 4} {op : Op} (hw : classDigit w = d)
    (h : ∀ nn : Byte, selectOp (d ++ (0#4 ++ nn)) = some op) : selectOp w = some op := by
  rw [selectOp_key, hw]
  exact h _

/-- A sub-opcode of the ALU class (R54): it is enough to look at the field `y`. -/
theorem selectOp_encodeXY {d n : BitVec 4} {op : Op}
    (h : ∀ y : Reg, selectOp (d ++ (0#4 ++ (BitVec.ofFin (w := 4) y ++ n))) = some op) (x y : Reg) :
    selectOp (encodeXY d x y n) = some op := by
  rw [selectOp_key, classDigit, classDigit_encodeXY, lowByte_encodeXY]
  exact h y

/-! ## Byte order -/

@[simp] theorem joinBytes_high_low (w : Word) : joinBytes (highByte w) (lowByte w) = w := by
  apply word_ext
  intro i hi
  change BitVec.getLsbD (w := 8 + 8) (highByte w ++ lowByte w) i = _
  rw [BitVec.getLsbD_append, highByte, lowByte]
  interval_cases i <;> simp

end Sys2Proof
end

