-- ==== Sys2Proof/Laws/Memory.lean ====
section
/-! SUPPORT. The laws of memory (spec/20_memory.md R31, R41): a read after a write, and that every memory operation keeps the
canonical form. -/

namespace Sys2Proof.Machine

theorem Memory.get_cons (a : Nat) (b : Byte) (m : Memory) (a' : Nat) (h : a = a' → m.get a = resetByte a) :
    Memory.get (Memory.cons a b m) a' = if a = a' then b else m.get a' := by
  unfold Memory.cons
  split
  · rename_i hb
    split
    · rename_i ha; subst ha; rw [h rfl, hb]
    · rfl
  · rfl

theorem Memory.get_of_lt_all (m : Memory) (a : Nat) (h : ∀ c ∈ m, a < c.1) : m.get a = resetByte a := by
  induction m with
  | nil => rfl
  | cons c rest ih =>
    have hc : c.1 ≠ a := Nat.ne_of_gt (h c (by simp))
    simp only [Memory.get, hc, if_false]
    exact ih fun d hd => h d (by simp [hd])

/-- A write replaces its own byte and leaves every other one alone. -/
theorem Memory.get_set (m : Memory) (hm : m.Pairwise (fun c d => c.1 < d.1)) (a a' : Nat) (b : Byte) :
    Memory.get (m.set a b) a' = if a = a' then b else m.get a' := by
  induction m with
  | nil => exact Memory.get_cons a b [] a' fun _ => rfl
  | cons c rest ih =>
    obtain ⟨k, d⟩ := c
    obtain ⟨hk, hrest⟩ := List.pairwise_cons.1 hm
    unfold Memory.set
    split
    · rename_i hlt
      refine Memory.get_cons _ _ _ _ fun _ => Memory.get_of_lt_all _ _ ?_
      intro e he
      rcases List.mem_cons.1 he with rfl | he
      · exact hlt
      · exact Nat.lt_trans hlt (hk e he)
    · split
      · rename_i _ heq
        subst heq
        rw [Memory.get_cons _ _ _ _ fun _ => Memory.get_of_lt_all _ _ hk]
        by_cases h : a = a' <;> simp [Memory.get, h]
      · rename_i hne
        by_cases hka : k = a'
        · rw [if_neg fun h : a = a' => hne (h.trans hka.symm)]
          simp [Memory.get, hka]
        · simp [Memory.get, hka, ih hrest]

theorem Memory.mem_cons {a : Nat} {b : Byte} {m : Memory} {c : Host.Cell} (h : c ∈ Memory.cons a b m) :
    (c = (a, b) ∧ b ≠ resetByte a) ∨ c ∈ m := by
  unfold Memory.cons at h
  split at h
  · exact .inr h
  · rename_i hb
    exact (List.mem_cons.1 h).imp (fun e => ⟨e, hb⟩) id

theorem Memory.pairwise_cons {a : Nat} {b : Byte} {m : Memory} (hm : m.Pairwise (fun c d => c.1 < d.1))
    (ha : ∀ c ∈ m, a < c.1) : (Memory.cons a b m).Pairwise (fun c d => c.1 < d.1) := by
  unfold Memory.cons
  split
  · exact hm
  · exact List.pairwise_cons.2 ⟨ha, hm⟩

theorem Memory.mem_set {m : Memory} {a : Nat} {b : Byte} {c : Host.Cell} (h : c ∈ m.set a b) :
    (c = (a, b) ∧ b ≠ resetByte a) ∨ c ∈ m := by
  induction m with
  | nil => exact Memory.mem_cons h
  | cons d rest ih =>
    obtain ⟨k, e⟩ := d
    unfold Memory.set at h
    split at h
    · exact Memory.mem_cons h
    · split at h
      · exact (Memory.mem_cons h).imp id (List.mem_cons_of_mem _)
      · rcases List.mem_cons.1 h with rfl | h
        · exact .inr (by simp)
        · exact (ih h).imp id (List.mem_cons_of_mem _)

theorem Memory.pairwise_set {m : Memory} (hm : m.Pairwise (fun c d => c.1 < d.1)) (a : Nat) (b : Byte) :
    (m.set a b).Pairwise (fun c d => c.1 < d.1) := by
  induction m with
  | nil => exact Memory.pairwise_cons .nil (by simp)
  | cons d rest ih =>
    obtain ⟨k, e⟩ := d
    obtain ⟨hk, hrest⟩ := List.pairwise_cons.1 hm
    unfold Memory.set
    split
    · rename_i hlt
      refine Memory.pairwise_cons hm fun c hc => ?_
      rcases List.mem_cons.1 hc with rfl | hc
      · exact hlt
      · exact Nat.lt_trans hlt (hk c hc)
    · split
      · rename_i _ heq
        exact Memory.pairwise_cons hrest (heq ▸ hk)
      · rename_i hlt hne
        refine List.pairwise_cons.2 ⟨fun c hc => ?_, ih hrest⟩
        rcases Memory.mem_set hc with ⟨rfl, _⟩ | hc
        · exact Nat.lt_of_le_of_ne (Nat.le_of_not_lt hlt) (Ne.symm hne)
        · exact hk c hc

/-- A write at an address below 4096 keeps the canonical form. -/
theorem Memory.wf_set {m : Memory} (hm : Memory.wf m) {a : Nat} (ha : a < Config.memSize) (b : Byte) :
    Memory.wf (m.set a b) := by
  refine ⟨Memory.pairwise_set hm.1 a b, fun c hc => ?_⟩
  rcases Memory.mem_set hc with ⟨rfl, hb⟩ | hc
  · exact ⟨ha, hb⟩
  · exact hm.2 c hc

theorem reduceAddr_lt (a : Nat) : reduceAddr a < Config.memSize := Nat.mod_lt _ (by decide)

theorem reduceAddr_of_lt {a : Nat} (h : a < Config.memSize) : reduceAddr a = a := Nat.mod_eq_of_lt h

/-- `MemWrite` keeps the canonical form. -/
theorem State.memWrite_wf {s : State} (h : Memory.wf s.mem) (addr : Nat) (b : Byte) :
    Memory.wf (s.memWrite addr b).mem := Memory.wf_set h (reduceAddr_lt addr) b

/-- `MemRead` after `MemWrite`: the byte written at every address that reduces to the same one, else as before (R31). -/
theorem State.memRead_memWrite {s : State} (h : Memory.wf s.mem) (addr addr' : Nat) (b : Byte) :
    (s.memWrite addr b).memRead addr' = if reduceAddr addr = reduceAddr addr' then b else s.memRead addr' :=
  Memory.get_set s.mem h.1 _ _ b

/-- Consecutive writes keep the canonical form. -/
theorem State.memWriteList_wf {s : State} (h : Memory.wf s.mem) (addr : Nat) (bytes : List Byte) :
    Memory.wf (s.memWriteList addr bytes).mem := by
  induction bytes generalizing s addr with
  | nil => exact h
  | cons b rest ih => exact ih (State.memWrite_wf h addr b) (addr + 1)

/-- Everything consecutive writes below 4096 do to memory: the bytes given, and every other byte as before. -/
theorem State.memRead_memWriteList {s : State} (h : Memory.wf s.mem) (addr : Nat) (bytes : List Byte)
    (hfit : addr + bytes.length ≤ Config.memSize) {a : Nat} (ha : a < Config.memSize) :
    (s.memWriteList addr bytes).memRead a =
      if addr ≤ a ∧ a < addr + bytes.length then bytes.getD (a - addr) 0 else s.memRead a := by
  induction bytes generalizing s addr with
  | nil =>
    have : ¬(addr ≤ a ∧ a < addr + ([] : List Byte).length) := by simp
    rw [if_neg this]; rfl
  | cons b rest ih =>
    simp only [List.length_cons] at hfit ⊢
    rw [State.memWriteList, ih (State.memWrite_wf h addr b) (addr + 1) (by omega), State.memRead_memWrite h,
      reduceAddr_of_lt ha, reduceAddr_of_lt (by omega : addr < Config.memSize)]
    by_cases h1 : addr = a
    · subst h1; simp
    · by_cases h2 : addr + 1 ≤ a ∧ a < addr + 1 + rest.length
      · have h3 : a - addr = (a - (addr + 1)) + 1 := by omega
        rw [if_pos h2, if_pos (by omega), h3, List.getD_cons_succ]
      · rw [if_neg h2, if_neg h1, if_neg (by omega)]

/-- Consecutive writes change memory only. -/
theorem State.memWriteList_eq (s : State) (addr : Nat) (bytes : List Byte) :
    s.memWriteList addr bytes = { s with mem := (s.memWriteList addr bytes).mem } := by
  induction bytes generalizing s addr with
  | nil => rfl
  | cons b rest ih => rw [State.memWriteList, ih]; rfl

/-- The memory of the reset state is in canonical form. -/
theorem reset_memory_wf : Memory.wf State.reset.mem := by decide

end Sys2Proof.Machine
end

