-- ==== Sys2Proof/Laws/Fetch.lean ====
section
/-! SUPPORT. An instruction stored at `pc` is the one the next step fetches (spec/20_memory.md R32, R33, R44). -/

namespace Sys2Proof.Machine

/-- A word stored at `pc` is fetched whole, wherever `pc` stands, the top of memory included. -/
theorem State.fetchWord_storeAtPc {s : State} (h : Memory.wf s.mem) (w : Word) : (s.storeAtPc w).fetchWord = w := by
  have hne : reduceAddr (s.pc.toNat + 1) ≠ reduceAddr s.pc.toNat := by
    simp only [reduceAddr, Config.memSize]
    omega
  have hpc : (s.storeAtPc w).pc = s.pc := by
    rw [State.storeAtPc, State.memWriteList_eq]
  have h0 : (s.storeAtPc w).memRead s.pc.toNat = highByte w := by
    rw [State.storeAtPc, State.memWriteList, State.memWriteList, State.memWriteList,
      State.memRead_memWrite (State.memWrite_wf h _ _), if_neg hne, State.memRead_memWrite h, if_pos rfl]
  have h1 : (s.storeAtPc w).memRead (s.pc.toNat + 1) = lowByte w := by
    rw [State.storeAtPc, State.memWriteList, State.memWriteList, State.memWriteList,
      State.memRead_memWrite (State.memWrite_wf h _ _), if_pos rfl]
  rw [State.fetchWord, hpc, h0, h1, joinBytes_high_low]

/-- `withFetchWord` makes the very next step run the instruction given. -/
theorem step_withFetchWord {s : State} (h : Memory.wf s.mem) (nbits w : Nat) :
    (s.withFetchWord nbits w).fetchWord = tableWord nbits w ∧
      step (s.withFetchWord nbits w) = runInstr (s.withFetchWord nbits w) :=
  ⟨State.fetchWord_storeAtPc h _, step_of_not_halted rfl⟩

end Sys2Proof.Machine
end

