-- ==== Sys2Proof/Laws/HostOps.lean ====
section
/-! SUPPORT. What a host operation can do, said once (spec/80_host_interface.md R180). -/

namespace Sys2Proof.Machine

/-- A `load` changes nothing or writes its bytes (R181). -/
theorem State.load_cases (s : State) (bytes : List Byte) :
    (3584 < bytes.length ∧ s.load bytes = s) ∨
    (bytes.length ≤ 3584 ∧ s.load bytes = s.memWriteList 0x200 bytes) := by
  unfold State.load loadTooLong
  simp only [Config.memSize, Config.progBase, decide_eq_true_eq]
  split
  · exact .inl ⟨by omega, rfl⟩
  · exact .inr ⟨by omega, rfl⟩

/-- `load` keeps the canonical form. -/
theorem State.load_wf {s : State} (h : Memory.wf s.mem) (bytes : List Byte) : Memory.wf (s.load bytes).mem := by
  rcases s.load_cases bytes with ⟨_, e⟩ | ⟨_, e⟩ <;> rw [e]
  · exact h
  · exact State.memWriteList_wf h _ _

/-- `load` never reaches below the program region (spec/20_memory.md R38). -/
theorem State.memRead_load_low {s : State} (h : Memory.wf s.mem) (bytes : List Byte) {a : Nat} (ha : a < 0x200) :
    (s.load bytes).memRead a = s.memRead a := by
  rcases s.load_cases bytes with ⟨_, e⟩ | ⟨hle, e⟩ <;> rw [e]
  rw [State.memRead_memWriteList h 0x200 bytes (by simp only [Config.memSize]; omega) (by simp only [Config.memSize]; omega),
    if_neg (by omega)]

/-- The state after a host operation: reset, loaded, one cycle on, the flag cleared, or the same. -/
theorem HostOp.apply_next {font : Config.Font} {op : HostOp} {s t : State} {r : HostReply}
    (h : op.apply font s = .next (t, r)) :
    (op = .reset ∧ t = State.resetWith font) ∨ (∃ bytes, op = .load bytes ∧ t = s.load bytes) ∨
    (op = .executeCycle ∧ step s = .next t) ∨ (op = .consumeRedraw ∧ t = s.consumeRedraw) ∨
    ((op = .framebufferSnapshot ∨ op = .needsRedraw) ∧ t = s) := by
  cases op with
  | executeCycle =>
    simp only [HostOp.apply] at h
    split at h
    · rename_i u hu
      obtain ⟨rfl, _⟩ := Prod.mk.inj (Host.Outcome.next.inj h)
      exact .inr (.inr (.inl ⟨rfl, hu⟩))
    · cases h
    · cases h
  | _ =>
    obtain ⟨rfl, _⟩ := Prod.mk.inj (Host.Outcome.next.inj h)
    simp

/-- The plain reset is the reset of the machine with the default FONT (spec/20_memory.md R37). -/
theorem State.resetWith_defaultFont : State.resetWith Config.defaultFont = State.reset := by decide +kernel

/-- Reset with a FONT changes memory only, against the plain reset. -/
theorem State.resetWith_eq (font : Config.Font) :
    State.resetWith font = { State.reset with mem := (State.resetWith font).mem } := State.memWriteList_eq _ _ _

/-- Reset with a FONT leaves memory in canonical form. -/
theorem State.resetWith_wf (font : Config.Font) : Memory.wf (State.resetWith font).mem :=
  State.memWriteList_wf reset_memory_wf _ _

end Sys2Proof.Machine
end

