-- ==== Sys2Proof/Laws/PerInstr.lean ====
section
/-! SUPPORT. One lemma per instruction: the word the encoder writes selects the instruction's own row of the opcode map
(spec/30_encoding.md R55), for every operand. -/

namespace Sys2Proof.Laws.EncodeSelects

/-- The word of a well-formed instruction selects its row; that of an unmatched word selects none. -/
def Statement (i : Instr) : Prop := i.wellFormed = true → selectOp (encode i) = i.op

theorem cls : Statement .cls := fun _ => by decide
theorem ret : Statement .ret := fun _ => by decide
theorem jp (nnn : BitVec 12) : Statement (.jp nnn) := fun _ =>
  selectOp_of_class (classDigit_encodeA _ _) (by decide +kernel)
theorem call (nnn : BitVec 12) : Statement (.call nnn) := fun _ =>
  selectOp_of_class (classDigit_encodeA _ _) (by decide +kernel)
theorem ldVxNn (x : Reg) (nn : Byte) : Statement (.ldVxNn x nn) := fun _ =>
  selectOp_of_class (classDigit_encodeK _ _ _) (by decide +kernel)
theorem addVxNn (x : Reg) (nn : Byte) : Statement (.addVxNn x nn) := fun _ =>
  selectOp_of_class (classDigit_encodeK _ _ _) (by decide +kernel)
theorem ldINnn (nnn : BitVec 12) : Statement (.ldINnn nnn) := fun _ =>
  selectOp_of_class (classDigit_encodeA _ _) (by decide +kernel)
theorem ldVxVy (x y : Reg) : Statement (.ldVxVy x y) := fun _ => selectOp_encodeXY (by decide) x y
theorem or (x y : Reg) : Statement (.or x y) := fun _ => selectOp_encodeXY (by decide) x y
theorem and (x y : Reg) : Statement (.and x y) := fun _ => selectOp_encodeXY (by decide) x y
theorem xor (x y : Reg) : Statement (.xor x y) := fun _ => selectOp_encodeXY (by decide) x y
theorem addVxVy (x y : Reg) : Statement (.addVxVy x y) := fun _ => selectOp_encodeXY (by decide) x y
theorem sub (x y : Reg) : Statement (.sub x y) := fun _ => selectOp_encodeXY (by decide) x y
theorem subn (x y : Reg) : Statement (.subn x y) := fun _ => selectOp_encodeXY (by decide) x y
theorem shr (x y : Reg) : Statement (.shr x y) := fun _ => selectOp_encodeXY (by decide) x y
theorem shl (x y : Reg) : Statement (.shl x y) := fun _ => selectOp_encodeXY (by decide) x y
theorem drw (x y : Reg) (n : Fin 16) : Statement (.drw x y n) := fun _ =>
  selectOp_of_class (classDigit_encodeXY _ _ _ _) (by decide +kernel)
theorem unmatched (w : Word) : Statement (.unmatched w) := fun h => Option.isNone_iff_eq_none.1 h

end Sys2Proof.Laws.EncodeSelects
end

