-- ==== Sys2Proof/Laws/Registers.lean ====
section
/-! SUPPORT. The laws of the general registers and of writing results and flags (spec/10_state.md R10, R11). -/

namespace Sys2Proof.Machine

/-- A register write replaces its own register and leaves every other one alone (R10). -/
theorem State.readV_writeV (s : State) (r r' : Reg) (b : Byte) :
    (s.writeV r b).readV r' = if r' = r then b else s.readV r' := by
  simp only [State.readV, State.writeV, Fin.getElem_fin, Vector.getElem_set]
  by_cases h : r' = r
  · simp [h]
  · rw [if_neg fun e => h (Fin.ext e.symm), if_neg h]

theorem State.readV_writeV_self (s : State) (r : Reg) (b : Byte) : (s.writeV r b).readV r = b := by
  rw [State.readV_writeV, if_pos rfl]

/-- A flag write makes VF the flag's byte and leaves every other register alone (R11). -/
theorem State.readV_writeFlag (s : State) (flag : Bool) (r : Reg) :
    (s.writeFlag flag).readV r = if r = Reg.vf then flagByte flag else s.readV r := State.readV_writeV _ _ _ _

/-- Everything the shared write of a result and a flag does to the registers: the flag last (R11 (d), R109). -/
theorem State.readV_writeResultThenFlag (s : State) (x : Reg) (result : Option Byte) (flag : Bool) (r : Reg) :
    (s.writeResultThenFlag x result flag).readV r =
      if r = Reg.vf then flagByte flag else if r = x then result.getD (s.readV x) else s.readV r := by
  cases result with
  | none =>
    rw [State.writeResultThenFlag, State.readV_writeFlag]
    by_cases h : r = x <;> simp [h]
  | some b => simp [State.writeResultThenFlag, State.readV_writeFlag, State.readV_writeV]

/-- Everything the shared write of an unflagged result does to the registers (R91). -/
theorem State.readV_writeResult (s : State) (x : Reg) (result : Option Byte) (r : Reg) :
    (s.writeResult x result).readV r = if r = x then result.getD (s.readV x) else s.readV r := by
  cases result with
  | none => by_cases h : r = x <;> simp [State.writeResult, h]
  | some b => simp [State.writeResult, State.readV_writeV]

/-! ## The two shared writes leave every other field and view alone -/

@[simp] theorem State.writeResultThenFlag_pc (s : State) (x : Reg) (result : Option Byte) (flag : Bool) :
    (s.writeResultThenFlag x result flag).pc = s.pc := by cases result <;> rfl
@[simp] theorem State.writeResultThenFlag_i (s : State) (x : Reg) (result : Option Byte) (flag : Bool) :
    (s.writeResultThenFlag x result flag).i = s.i := by cases result <;> rfl
@[simp] theorem State.writeResultThenFlag_stack (s : State) (x : Reg) (result : Option Byte) (flag : Bool) :
    (s.writeResultThenFlag x result flag).stack = s.stack := by cases result <;> rfl
@[simp] theorem State.writeResultThenFlag_dt (s : State) (x : Reg) (result : Option Byte) (flag : Bool) :
    (s.writeResultThenFlag x result flag).dt = s.dt := by cases result <;> rfl
@[simp] theorem State.writeResultThenFlag_st (s : State) (x : Reg) (result : Option Byte) (flag : Bool) :
    (s.writeResultThenFlag x result flag).st = s.st := by cases result <;> rfl
@[simp] theorem State.writeResultThenFlag_redraw (s : State) (x : Reg) (result : Option Byte) (flag : Bool) :
    (s.writeResultThenFlag x result flag).redraw = s.redraw := by cases result <;> rfl
@[simp] theorem State.writeResultThenFlag_fault (s : State) (x : Reg) (result : Option Byte) (flag : Bool) :
    (s.writeResultThenFlag x result flag).fault = s.fault := by cases result <;> rfl
@[simp] theorem State.writeResultThenFlag_fb (s : State) (x : Reg) (result : Option Byte) (flag : Bool) :
    (s.writeResultThenFlag x result flag).fb = s.fb := by cases result <;> rfl
@[simp] theorem State.writeResultThenFlag_mem (s : State) (x : Reg) (result : Option Byte) (flag : Bool) :
    (s.writeResultThenFlag x result flag).mem = s.mem := by cases result <;> rfl
@[simp] theorem State.writeResultThenFlag_memRead (s : State) (x : Reg) (result : Option Byte) (flag : Bool) (a : Nat) :
    (s.writeResultThenFlag x result flag).memRead a = s.memRead a := by cases result <;> rfl
@[simp] theorem State.writeResultThenFlag_pixel (s : State) (x : Reg) (result : Option Byte) (flag : Bool) (px : Fin 64) (py : Fin 32) :
    (s.writeResultThenFlag x result flag).pixel px py = s.pixel px py := by cases result <;> rfl

@[simp] theorem State.writeResult_pc (s : State) (x : Reg) (result : Option Byte) :
    (s.writeResult x result).pc = s.pc := by cases result <;> rfl
@[simp] theorem State.writeResult_i (s : State) (x : Reg) (result : Option Byte) :
    (s.writeResult x result).i = s.i := by cases result <;> rfl
@[simp] theorem State.writeResult_stack (s : State) (x : Reg) (result : Option Byte) :
    (s.writeResult x result).stack = s.stack := by cases result <;> rfl
@[simp] theorem State.writeResult_dt (s : State) (x : Reg) (result : Option Byte) :
    (s.writeResult x result).dt = s.dt := by cases result <;> rfl
@[simp] theorem State.writeResult_st (s : State) (x : Reg) (result : Option Byte) :
    (s.writeResult x result).st = s.st := by cases result <;> rfl
@[simp] theorem State.writeResult_redraw (s : State) (x : Reg) (result : Option Byte) :
    (s.writeResult x result).redraw = s.redraw := by cases result <;> rfl
@[simp] theorem State.writeResult_fault (s : State) (x : Reg) (result : Option Byte) :
    (s.writeResult x result).fault = s.fault := by cases result <;> rfl
@[simp] theorem State.writeResult_fb (s : State) (x : Reg) (result : Option Byte) :
    (s.writeResult x result).fb = s.fb := by cases result <;> rfl
@[simp] theorem State.writeResult_mem (s : State) (x : Reg) (result : Option Byte) :
    (s.writeResult x result).mem = s.mem := by cases result <;> rfl
@[simp] theorem State.writeResult_memRead (s : State) (x : Reg) (result : Option Byte) (a : Nat) :
    (s.writeResult x result).memRead a = s.memRead a := by cases result <;> rfl
@[simp] theorem State.writeResult_pixel (s : State) (x : Reg) (result : Option Byte) (px : Fin 64) (py : Fin 32) :
    (s.writeResult x result).pixel px py = s.pixel px py := by cases result <;> rfl

/-- Registers that read the same are the same. -/
theorem vector_ext_readV {s t : State} (h : ∀ r, s.readV r = t.readV r) : s.v = t.v :=
  Vector.ext fun k hk => h ⟨k, hk⟩

end Sys2Proof.Machine
end

