-- ==== Sys2Proof/Laws/Screen.lean ====
section
/-! SUPPORT. The laws of the framebuffer (spec/10_state.md R16) and of toggling one pixel (spec/44_draw.md R120). -/

namespace Sys2Proof.Machine

theorem vector_getElem_set {α : Type} {n : Nat} (v : Vector α n) (i j : Fin n) (a : α) :
    (v.set i a)[j] = if j = i then a else v[j] := by
  by_cases h : j = i
  · subst h; simp
  · simp [h, Vector.getElem_set_ne, Ne.symm (Fin.val_ne_of_ne h)]

/-- A pixel write replaces its own pixel and leaves every other one alone. -/
theorem Framebuffer.pixel_setPixel (fb : Framebuffer) (px px' : Fin 64) (py py' : Fin 32) (b : Bool) :
    Framebuffer.pixel (Framebuffer.setPixel fb px py b) px' py' =
      if px' = px ∧ py' = py then b else Framebuffer.pixel fb px' py' := by
  have hrow : (Framebuffer.setPixel fb px py b)[py'] = if py' = py then fb[py].set px b else fb[py'] :=
    vector_getElem_set fb py py' _
  by_cases hy : py' = py
  · subst hy
    rw [if_pos rfl] at hrow
    simp only [Framebuffer.pixel, hrow, vector_getElem_set, and_true]
  · rw [if_neg hy] at hrow
    simp only [Framebuffer.pixel, hrow, hy, and_false, if_false]

@[simp] theorem Framebuffer.pixel_clear (px : Fin 64) (py : Fin 32) :
    Framebuffer.pixel Framebuffer.clear px py = false := by
  simp [Framebuffer.pixel, Framebuffer.clear]

/-- Framebuffers with the same pixels are the same. -/
theorem Framebuffer.ext_pixel {fb fb' : Framebuffer}
    (h : ∀ px py, Framebuffer.pixel fb px py = Framebuffer.pixel fb' px py) : fb = fb' :=
  Vector.ext fun y hy => Vector.ext fun x hx => h ⟨x, hx⟩ ⟨y, hy⟩

theorem State.pixel_writeFb (s : State) (fb : Framebuffer) (px : Fin 64) (py : Fin 32) :
    (s.writeFb fb).pixel px py = Framebuffer.pixel fb px py := rfl

/-- Toggling a pixel flips it and leaves every other one alone (R120). -/
theorem Canvas.pixel_toggle (c : Canvas) (px px' : Fin 64) (py py' : Fin 32) :
    Framebuffer.pixel (c.toggle px py).fb px' py' =
      if px' = px ∧ py' = py then !Framebuffer.pixel c.fb px' py' else Framebuffer.pixel c.fb px' py' := by
  rw [Canvas.toggle, Framebuffer.pixel_setPixel]
  by_cases h : px' = px ∧ py' = py
  · rw [if_pos h, if_pos h, h.1, h.2]
  · rw [if_neg h, if_neg h]

/-- Toggling a pixel collides exactly when it was on (R120). -/
theorem Canvas.collision_toggle (c : Canvas) (px : Fin 64) (py : Fin 32) :
    (c.toggle px py).collision = (c.collision || Framebuffer.pixel c.fb px py) := rfl

end Sys2Proof.Machine
end

