-- ==== Sys2Proof/Tests/Slice0.lean ====
section
/-! SUPPORT. The model's own tests: an ill-formed term, one word of every constructor written out from the spec's encoding,
single steps whose results are printed in spec/95_test_vectors.md (the vector's number in each comment), and for every
statement with hypotheses a state that meets them. -/

-- One theorem at a time: many kernel evaluations at once each take a thread's stack.
set_option Elab.async false

namespace Sys2Proof.Tests

open Sys2Proof.Machine

/-! ## Helpers -/

/-- The reset state with a word to fetch and some registers set. -/
def start (w : Nat) (regs : List (Reg × Byte)) : State :=
  regs.foldl (fun s rb => s.writeV rb.1 rb.2) (State.reset.withFetchWord 16 w)

/-- The outcome is a next state with the property. -/
def nextIs (o : Host.Outcome State Fault Refusal) (p : State → Bool) : Bool :=
  match o with
  | .next t => p t
  | _ => false

/-- Some pixels turned on. -/
def lit (s : State) (pixels : List (Fin 64 × Fin 32)) : State :=
  pixels.foldl (fun s p => s.writeFb (Framebuffer.setPixel s.fb p.1 p.2 true)) s

/-- The pixels that are on, row by row. -/
def litPixels (s : State) : List Nat :=
  ((Framebuffer.flat s.fb).zipIdx.filter (·.1)).map (·.2)

/-- The sprite bytes of the DRW vectors: FF 81 3C at 0x300. -/
def withSprite (s : State) : State := s.memWriteList 0x300 [0xFF, 0x81, 0x3C]

/-! ## Well-formedness: the one check, refused and passed -/

theorem test_wellFormed_refuses_matched_word : (Instr.unmatched 0x00E0).wellFormed = false := by decide
theorem test_wellFormed_refuses_matched_alu_word : (Instr.unmatched 0x8124).wellFormed = false := by decide
theorem test_wellFormed_accepts_unmatched_word : (Instr.unmatched 0x8128).wellFormed = true := by decide

/-! ## Decoding, one word of each constructor bit by bit (spec/30_encoding.md R52, R55) -/

theorem test_decode_cls : decode 0b0000101011100000 = .cls := by decide
theorem test_decode_ret : decode 0b0000011111101110 = .ret := by decide
theorem test_decode_jp : decode 0b0001101010111100 = .jp 0xABC := by decide
theorem test_decode_call : decode 0b0010111111111111 = .call 0xFFF := by decide
theorem test_decode_ldVxNn : decode 0b0110101001111111 = .ldVxNn 0xA 0x7F := by decide
theorem test_decode_addVxNn : decode 0b0111111100000001 = .addVxNn 0xF 0x01 := by decide
theorem test_decode_ldINnn : decode 0b1010000100100011 = .ldINnn 0x123 := by decide
theorem test_decode_ldVxVy : decode 0b1000111100010000 = .ldVxVy 0xF 0x1 := by decide
theorem test_decode_or : decode 0b1000000100100001 = .or 0x1 0x2 := by decide
theorem test_decode_and : decode 0b1000000100100010 = .and 0x1 0x2 := by decide
theorem test_decode_xor : decode 0b1000000100100011 = .xor 0x1 0x2 := by decide
theorem test_decode_addVxVy : decode 0b1000000111110100 = .addVxVy 0x1 0xF := by decide
theorem test_decode_sub : decode 0b1000000000010101 = .sub 0x0 0x1 := by decide
theorem test_decode_subn : decode 0b1000000000010111 = .subn 0x0 0x1 := by decide
theorem test_decode_shr : decode 0b1000111100010110 = .shr 0xF 0x1 := by decide
theorem test_decode_shl : decode 0b1000000100101110 = .shl 0x1 0x2 := by decide
theorem test_decode_drw : decode 0b1101000100100011 = .drw 0x1 0x2 3 := by decide
theorem test_decode_unmatched : decode 0b0011101000010010 = .unmatched 0x3A12 := by decide
theorem test_decode_table_word : decodeTableWord 16 0x6005 = some (.ldVxNn 0 5) := by decide
theorem test_decode_bytes_truncated : decodeBytes [0x60] = .error .truncated := by decide

/-! ## One step of each instruction (spec/95_test_vectors.md) -/

/-- F1: CLS turns the two pixels off, leaves redraw and VF, steps DT. -/
theorem test_cls_clears : nextIs (step (lit { start 0x00E0 [] with dt := 1 } [(0, 0), (63, 31)]))
    (fun t => litPixels t == [] && t.redraw == false && t.readV 15 == 0 && t.dt == 0 && t.pc == 0x0202) = true := by
  decide +kernel

/-- F3: RET pops the top only. -/
theorem test_ret_pops : nextIs (step { start 0x00EE [] with stack := [0x0ABC, 0x0300] })
    (fun t => t.pc == 0x0ABC && t.stack == [0x0300]) = true := by decide +kernel

/-- F6: the RET at 0xFFFF, its second byte at 0x000, faults with its unreduced address and skips the timer step. -/
theorem test_ret_faults_at_top : nextIs (step (State.withFetchWord { State.reset with pc := 0xFFFF, dt := 9 } 16 0x00EE))
    (fun t => t.pc == 0x0001 && t.dt == 9 && t.fault == some (.stackUnderflow 0xFFFF) && t.stack == []) = true := by
  decide +kernel

/-- F8: a jump to itself still steps the timers. -/
theorem test_jp_self : nextIs (step { start 0x1200 [] with dt := 1, st := 1 })
    (fun t => t.pc == 0x0200 && t.dt == 0 && t.st == 0) = true := by decide +kernel

/-- F10: CALL pushes a + 2. -/
theorem test_call_pushes : nextIs (step (start 0x2ABC [])) (fun t => t.pc == 0x0ABC && t.stack == [0x0202]) = true := by
  decide +kernel

/-- F11: the pushed address is not reduced to 12 bits. -/
theorem test_call_pushes_unreduced : nextIs (step (State.withFetchWord { State.reset with pc := 0x0FFE } 16 0x2FFF))
    (fun t => t.pc == 0x0FFF && t.stack == [0x1000]) = true := by decide +kernel

/-- M2: VF is an ordinary destination. -/
theorem test_ldVxNn_vf : nextIs (step (start 0x6F55 [(15, 0x01)])) (fun t => t.readV 15 == 0x55) = true := by decide +kernel

/-- M5: a sum of exactly 255 is stored. -/
theorem test_addVxNn_255 : nextIs (step (start 0x7001 [(0, 0xFE)])) (fun t => t.readV 0 == 0xFF) = true := by decide +kernel

/-- M6: a sum of 256 leaves the register, and VF. -/
theorem test_addVxNn_256 : nextIs (step (start 0x7001 [(0, 0xFF)]))
    (fun t => t.readV 0 == 0xFF && t.readV 15 == 0) = true := by decide +kernel

/-- M14: the largest constant. -/
theorem test_ldINnn_top : nextIs (step { start 0xAFFF [] with i := 5 }) (fun t => t.i == 0x0FFF) = true := by decide +kernel

/-- A3: VF is an ordinary source. -/
theorem test_ldVxVy_from_vf : nextIs (step (start 0x81F0 [(15, 0x77)]))
    (fun t => t.readV 1 == 0x77 && t.readV 15 == 0x77) = true := by decide +kernel

/-- A5: OR leaves VF. -/
theorem test_or : nextIs (step (start 0x8121 [(1, 0x0F), (2, 0xF0), (15, 1)]))
    (fun t => t.readV 1 == 0xFF && t.readV 15 == 1) = true := by decide +kernel

/-- A6: AND leaves VF. -/
theorem test_and : nextIs (step (start 0x8122 [(1, 0x3C), (2, 0x0F), (15, 1)]))
    (fun t => t.readV 1 == 0x0C && t.readV 15 == 1) = true := by decide +kernel

/-- A7: XOR leaves VF. -/
theorem test_xor : nextIs (step (start 0x8123 [(1, 0xFF), (2, 0x0F), (15, 1)]))
    (fun t => t.readV 1 == 0xF0 && t.readV 15 == 1) = true := by decide +kernel

/-- A10: 255 is not an overflow. -/
theorem test_addVxVy_255 : nextIs (step (start 0x8014 [(0, 0xFE), (1, 0x01)]))
    (fun t => t.readV 0 == 0xFF && t.readV 15 == 0) = true := by decide +kernel

/-- A11: an overflow leaves the destination, not its low bits. -/
theorem test_addVxVy_overflow : nextIs (step (start 0x8014 [(0, 0x80), (1, 0x80)]))
    (fun t => t.readV 0 == 0x80 && t.readV 15 == 1) = true := by decide +kernel

/-- A20: a borrow leaves the destination. -/
theorem test_sub_borrow : nextIs (step (start 0x8015 [(0, 0x03), (1, 0x0A), (15, 1)]))
    (fun t => t.readV 0 == 0x03 && t.readV 15 == 0) = true := by decide +kernel

/-- A23: with x = F the flag remains, not the difference. -/
theorem test_sub_into_vf : nextIs (step (start 0x8F15 [(15, 0x09), (1, 0x04)])) (fun t => t.readV 15 == 1) = true := by
  decide +kernel

/-- A27: the destination of SUBN is V[x]. -/
theorem test_subn : nextIs (step (start 0x8017 [(0, 0x03), (1, 0x0A)]))
    (fun t => t.readV 0 == 0x07 && t.readV 1 == 0x0A && t.readV 15 == 1) = true := by decide +kernel

/-- A28: SUBN's borrow. -/
theorem test_subn_borrow : nextIs (step (start 0x8017 [(0, 0x0A), (1, 0x03), (15, 1)]))
    (fun t => t.readV 0 == 0x0A && t.readV 15 == 0) = true := by decide +kernel

/-- A33: the source of SHR is V[y], the old V[x] is discarded. -/
theorem test_shr : nextIs (step (start 0x8126 [(1, 0xEE), (2, 0x05)]))
    (fun t => t.readV 1 == 0x02 && t.readV 2 == 0x05 && t.readV 15 == 1) = true := by decide +kernel

/-- A37: with x = F the flag remains, not the shifted value. -/
theorem test_shr_into_vf : nextIs (step (start 0x8F16 [(1, 0x02), (15, 1)])) (fun t => t.readV 15 == 0) = true := by
  decide +kernel

/-- A42: bit 7 is shifted out and yet VF is 0. -/
theorem test_shl_bit7 : nextIs (step (start 0x812E [(1, 0xEE), (2, 0x80), (15, 1)]))
    (fun t => t.readV 1 == 0x00 && t.readV 15 == 0) = true := by decide +kernel

/-- A41: VF is bit 0 of the source. -/
theorem test_shl_bit0 : nextIs (step (start 0x812E [(1, 0xEE), (2, 0x81)]))
    (fun t => t.readV 1 == 0x02 && t.readV 2 == 0x81 && t.readV 15 == 1) = true := by decide +kernel

/-- G4: two rows at the bottom edge, the second wraps to the top. -/
theorem test_drw_wraps : nextIs (step (withSprite { start 0xD122 [(1, 0x04), (2, 0x1F)] with i := 0x301 }))
    (fun t => litPixels t == [6, 7, 8, 9, 31 * 64 + 4, 31 * 64 + 11] && t.readV 15 == 0 && t.redraw) = true := by
  decide +kernel

/-- G14: x = y = F uses the old VF as both coordinates, and a pixel turned off is a collision. -/
theorem test_drw_vf_collision : nextIs
    (step (lit (withSprite { start 0xDFF1 [(15, 0x21)] with i := 0x301 }) [(33, 1)]))
    (fun t => litPixels t == [1 * 64 + 40] && t.readV 15 == 1) = true := by decide +kernel

/-- N5, section 6: an excluded conventional instruction does nothing but cost a cycle. -/
theorem test_unmatched_skip : nextIs (step { start 0x3A12 [(10, 0x12)] with dt := 2, st := 2, stack := [0x0400] })
    (fun t => t.pc == 0x0202 && t.dt == 1 && t.st == 1 && t.stack == [0x0400] && t.readV 10 == 0x12) = true := by
  decide +kernel

/-- X5: a fetch at 0xFFF takes its second byte from the font (default FONT). -/
theorem test_unaligned_fetch_wraps :
    nextIs (step { State.reset.memWrite 0xFFF 0x61 with pc := 0x0FFF }) (fun t => t.readV 1 == 0xF0 && t.pc == 0x1001) =
      true := by decide +kernel

/-- T8: a halted core changes nothing, its timers included. -/
theorem test_halted : nextIs (step { start 0x6005 [] with fault := some (.stackUnderflow 0x0200), dt := 9, st := 9 })
    (fun t => t.pc == 0x0200 && t.dt == 9 && t.st == 9 && t.readV 0 == 0) = true := by decide +kernel

/-- H4: a second load writes its one byte and clears nothing. -/
theorem test_load_twice :
    let t := (State.reset.load [0x11, 0x22, 0x33, 0x44]).load [0xAA]
    (t.memRead 0x200, t.memRead 0x201, t.memRead 0x203, t.memRead 0x204) = (0xAA, 0x22, 0x44, 0) := by decide +kernel

/-- The canonical form: writing the reset contents back removes the entry. -/
theorem test_memory_canonical : ((State.reset.memWrite 0x300 5).memWrite 0x300 0).mem = [] := by decide

/-- G8: the default font's digit 0, drawn from 0x000. -/
theorem test_drw_font : nextIs (step (start 0xD005 []))
    (fun t => litPixels t == [0, 1, 2, 3, 64, 67, 128, 131, 192, 195, 256, 257, 258, 259]) = true := by decide +kernel

/-! ## Witnesses: states that meet the hypotheses of the statements -/

theorem witness_OpcodeRowsDisjoint :
    ∃ r ∈ opcodeTable, r.selects 0x00E0 = true := ⟨⟨.cls, 0xF0FF, 0x00E0⟩, by decide, by decide⟩

theorem witness_DecodeEncodeAgree : (Instr.unmatched 0x8128).wellFormed = true ∧ (Instr.drw 15 0 15).wellFormed = true := by
  decide

theorem witness_StepRunsDecodedInstruction :
    (start 0x6005 []).fault = none ∧ decode (start 0x6005 []).fetchWord = .ldVxNn 0 5 ∧
      (Instr.ldVxNn 0 5).wellFormed = true := by decide +kernel

theorem witness_HaltedCycleChangesNothing :
    ({ State.reset with fault := some (.stackUnderflow 0x200) } : State).fault = some (.stackUnderflow 0x200) := rfl

/-- The four clauses of the `pc` table: a jump, a call, a return, and a no-op at the top of the 16-bit range. -/
theorem witness_PcAfterEachCycle :
    (start 0x1FFF []).fault = none ∧ decode (start 0x1FFF []).fetchWord = .jp 0xFFF ∧
    decode (start 0x2000 []).fetchWord = .call 0x000 ∧
    (decode { start 0x00EE [] with stack := [0xFFFF] }.fetchWord = .ret) ∧
    decode { State.reset with pc := 0xFFFE }.fetchWord = .unmatched 0x0000 := by decide +kernel

/-- A CALL to 0x204 with a RET there. -/
def callRet : State := State.reset.memWriteList 0x200 [0x22, 0x04, 0, 0, 0x00, 0xEE]

theorem witness_CallThenRetComesBack : callRet.fault = none ∧ decode callRet.fetchWord = .call 0x204 ∧
    nextIs (step callRet) (fun t => decode t.fetchWord == .ret && nextIs (step t) fun _ => true) = true := by decide +kernel

theorem witness_TimersStepOncePerCycle : (start 0x0000 []).fault = none ∧
    ¬(decode (start 0x0000 []).fetchWord = .ret ∧ (start 0x0000 []).stack = []) := by decide +kernel

theorem witness_TimersOverUnfaultedRun : ∃ t, RunsWithoutFault 1 { State.reset with dt := 255, st := 1 } t :=
  ⟨{ State.reset with pc := 0x202, dt := 254, st := 0 }, by
    have h : step { State.reset with dt := 255, st := 1 } = .next { State.reset with pc := 0x202, dt := 254, st := 0 } := by
      rfl
    exact ⟨by simp only [Host.Core.run, h], rfl⟩⟩

theorem witness_FinishedProgramSpins : (start 0x1200 []).fault = none ∧ decode (start 0x1200 []).fetchWord = .jp 0x200 ∧
    (start 0x1200 []).pc.toNat = (0x200 : BitVec 12).toNat := by decide +kernel

theorem witness_EmptyStackRetTakesFault : (start 0x00EE []).fault = none ∧ decode (start 0x00EE []).fetchWord = .ret ∧
    (start 0x00EE []).stack = [] := by decide +kernel

/-- Both sides of the equivalence: a cycle that faults and one that does not. -/
theorem witness_OnlyEmptyStackRetFaults : (start 0x00EE []).fault = none ∧
    nextIs (step (start 0x00EE [])) (fun t => t.fault.isSome) = true ∧
    nextIs (step { start 0x00EE [] with stack := [0] }) (fun t => t.fault.isNone) = true := by decide +kernel

/-- The immediate add that overflows is among the instructions that are no errors. -/
theorem witness_DefinedNoOpsAreNoErrors : (start 0x70FF [(0, 0x01)]).fault = none ∧
    decode (start 0x70FF [(0, 0x01)]).fetchWord ≠ .ret := by decide +kernel

/-- The core after the RET at 0x200 has faulted. -/
def faulted : State := { start 0x00EE [] with pc := 0x202, fault := some (.stackUnderflow 0x200) }

theorem witness_OnlyResetClearsFault : faulted.fault = some (.stackUnderflow 0x200) ∧
    HostOp.load [0x12, 0x00] ≠ .reset := ⟨rfl, by decide⟩

theorem witness_CyclesLeaveMemory : ∃ t, step State.reset = .next t := ⟨_, rfl⟩

theorem witness_OnlyDrawSetsRedraw : (start 0xD000 []).fault = none ∧ decode (start 0xD000 []).fetchWord = .drw 0 0 0 := by
  decide +kernel

/-- The invariant holds in a state where its fault clause says something, and that state has a next state. -/
theorem witness_InvariantKeptByEveryStep : faulted.Inv ∧ step faulted = .next faulted := by
  refine ⟨⟨by decide +kernel, by decide +kernel, fun a h => ?_⟩, step_of_halted rfl⟩
  have ha : a = 0x200 := by simpa [faulted] using h.symm
  subst ha
  decide +kernel

theorem witness_LowMemoryNeverChanges : Memory.wf State.reset.mem ∧
    (∀ a, a < 0x200 → State.reset.memRead a = resetByteOf Config.defaultFont a) ∧
    ∃ t rs, runHost Config.defaultFont [.reset, .load [0x60, 0x05], .executeCycle] State.reset = .next (t, rs) :=
  ⟨reset_memory_wf, fun a ha => congrArg resetByte (Nat.mod_eq_of_lt (by simp; omega)), ⟨_, _, rfl⟩⟩

theorem witness_AccessMatrixWrites : ∃ t, exec (.drw 15 15 15) State.reset = .next t := ⟨_, rfl⟩

/-- Two states that agree on what `ADD V0, V1` reads and on VF, and differ elsewhere. -/
theorem witness_AccessMatrixReads : ∀ q : Part,
    q ∈ readsOf (.addVxVy 0 1) ∨ q = .reg 15 ∨ (Instr.addVxVy 0 1 = .ret ∧ Part.reg 15 = .fault ∧ q = .pc) →
    q.same State.reset { State.reset with i := 7, stack := [1] } := by
  rintro q (h | rfl | ⟨h, -⟩)
  · simp only [readsOf, List.mem_cons, List.not_mem_nil, or_false] at h
    rcases h with rfl | rfl <;> rfl
  · rfl
  · cases h

/-- The clause for the latch of `RET`: two states that agree on the stack, `pc` and the latch, and differ elsewhere. -/
theorem witness_AccessMatrixReads_ret : ∀ q : Part,
    q ∈ readsOf .ret ∨ q = .fault ∨ (Instr.ret = .ret ∧ Part.fault = .fault ∧ q = .pc) →
    q.same State.reset { State.reset with i := 7, dt := 3 } := by
  rintro q (h | rfl | ⟨-, -, rfl⟩)
  · simp only [readsOf, List.mem_cons, List.not_mem_nil, or_false] at h
    subst h
    rfl
  · rfl
  · rfl

theorem witness_FlagWritersLeaveZeroOrOne : ∃ x y, Instr.shl 15 15 = .addVxVy x y ∨ Instr.shl 15 15 = .sub x y ∨
    Instr.shl 15 15 = .subn x y ∨ Instr.shl 15 15 = .shr x y ∨ Instr.shl 15 15 = .shl x y ∨
    ∃ n, Instr.shl 15 15 = .drw x y n := ⟨15, 15, by simp⟩

theorem witness_RetPopsIntoPc : ({ State.reset with stack := [0x1234, 0x0300] } : State).stack = 0x1234 :: [0x0300] := rfl

theorem witness_RetOnEmptyStackLatches : State.reset.stack = [] := rfl

/-- The sprite row 0x81 at 0x301 names a pixel in its last column (r = 0, b = 7) and none beside its first (b = 1). -/
theorem witness_DrwTogglesSpriteSet :
    let s := withSprite { State.reset with i := 0x301 }
    (s.mem.get ((s.i.toNat + 0) % 4096)).getLsbD (7 - 7) = true ∧ (7 : Fin 64).val = ((s.readV 0).toNat % 64 + 7) % 64 ∧
      (s.mem.get ((s.i.toNat + 0) % 4096)).getLsbD (7 - 1) = false := by decide +kernel

/-- The state between the draws is the one after the first, whose coordinates are not F. -/
theorem witness_DoubleDrawRestoresPicture : ∃ t, exec (.drw 1 2 3) State.reset = .next t ∧ Part.screen.same t t ∧
    (Part.reg 1).same State.reset t ∧ (Part.reg 2).same State.reset t ∧ Part.index.same State.reset t ∧
    Part.memory.same State.reset t :=
  ⟨_, rfl, fun _ _ => rfl, State.readV_writeFlag _ _ 1, State.readV_writeFlag _ _ 2, rfl, fun _ => rfl⟩

/-- With x = y = F the first draw overwrites the coordinate, which is restored between the draws. -/
theorem witness_DoubleDrawRestoresPicture_vf :
    let s : State := start 0xDFF1 [(15, 0x21)]
    ∃ t, exec (.drw 15 15 1) s = .next t ∧ t.readV 15 ≠ s.readV 15 ∧ Part.screen.same t (t.writeV 15 0x21) ∧
      (Part.reg 15).same s (t.writeV 15 0x21) ∧ Part.index.same s (t.writeV 15 0x21) ∧
      Part.memory.same s (t.writeV 15 0x21) :=
  ⟨_, rfl, by decide +kernel, fun _ _ => rfl, (State.readV_writeV_self _ 15 0x21).trans (by decide +kernel), rfl,
    fun _ => rfl⟩

theorem witness_UnmatchedWordIsNoOp : (start 0xF155 []).fault = none ∧
    ∀ r ∈ opcodeTable, (start 0xF155 []).fetchWord &&& r.mask ≠ r.pattern := by decide +kernel

/-- Another FONT is still there after a host reset. -/
theorem test_reset_keeps_font : (match HostOp.reset.apply (Vector.replicate 80 0xAB) State.reset with
    | .next (t, _) => t.memRead 0x000 == 0xAB && t.memRead 0x04F == 0xAB && t.memRead 0x050 == 0
    | _ => false) = true := by decide +kernel

/-- A load that fits exactly, at the top of memory. -/
theorem witness_LoadCopiesBytes : Memory.wf State.reset.mem ∧ (List.replicate 3584 (0xAB : Byte)).length ≤ 3584 :=
  ⟨reset_memory_wf, List.length_replicate.le⟩

theorem witness_LoadTooLargeChangesNothing : 3584 < (List.replicate 3585 (0xAB : Byte)).length :=
  Nat.lt_of_lt_of_eq (by decide) List.length_replicate.symm

end Sys2Proof.Tests
end

section
/-! The instruction fetch in the numbers of spec/20_memory.md R31 and R32. -/

namespace Sys2Proof.Machine

/-- R32's `(byte0 << 8) | byte1` is the concatenation by which the model joins two bytes. -/
theorem joinBytes_eq_shiftLeft_or (byte0 byte1 : Byte) :
    joinBytes byte0 byte1 = byte0.setWidth 16 <<< 8 ||| byte1.setWidth 16 :=
  calc joinBytes byte0 byte1
    _ = (byte0 ++ byte1).setWidth 16 := (BitVec.setWidth_eq _).symm
    _ = byte0.setWidth 16 <<< 8 ||| byte1.setWidth 16 := BitVec.setWidth_append_eq_shiftLeft_setWidth_or

/-- `MemRead(addr, 1)` is `Mem[addr mod 4096]` (R31). -/
theorem State.memRead_eq_get_mod (s : State) (addr : Nat) : s.memRead addr = s.mem.get (addr % 4096) := rfl

/-- Settles O8: the fetch joins its two reads big-endian, and each read reduces its address modulo 4096. -/
theorem fetchJoinsTwoBytesBigEndian : Obligations.FetchJoinsTwoBytesBigEndian := by
  intro s
  rw [State.fetchWord, joinBytes_eq_shiftLeft_or, State.memRead_eq_get_mod, State.memRead_eq_get_mod]

end Sys2Proof.Machine
end

section
/-! The words of format K in the numbers of spec/30_encoding.md R52 and R55, and the immediate instructions of
spec/42_immediate.md that use it: `LD Vx, nn` and `ADD Vx, nn`. -/

namespace Sys2Proof

/-! ## Format K -/

/-- The word of format K (R52) as a number: the digits' weights are 4096, 256 and 1. -/
theorem encodeK_toNat (d : BitVec 4) (x : Reg) (nn : Byte) :
    (encodeK d x nn).toNat = 4096 * d.toNat + 256 * x.val + nn.toNat := by
  have hhigh : (d ++ BitVec.ofFin (w := 4) x).toNat = d.toNat <<< 4 + x.val := by
    rw [BitVec.toNat_append, ← Nat.shiftLeft_add_eq_or_of_lt (BitVec.isLt _)]
    rfl
  have hword : (encodeK d x nn).toNat = (d.toNat <<< 4 + x.val) <<< 8 + nn.toNat := by
    rw [encodeK, BitVec.toNat_append, ← Nat.shiftLeft_add_eq_or_of_lt nn.isLt, hhigh]
  rw [hword, Nat.shiftLeft_eq, Nat.shiftLeft_eq]
  omega

/-- The word that a format K number stands for is the encoder's. -/
theorem ofNat_eq_encodeK (d : BitVec 4) (x : Reg) (nn : Byte) :
    BitVec.ofNat 16 (4096 * d.toNat + 256 * x.val + nn.toNat) = encodeK d x nn := by
  rw [← encodeK_toNat, BitVec.ofNat_toNat, BitVec.setWidth_eq]

/-- A word that selects a row decodes to that row's instruction (R57). -/
theorem decode_of_selectOp {w : Word} {op : Op} (h : selectOp w = some op) : decode w = op.instr w := by
  rw [decode, h]

theorem decode_encode_ldVxNn (x : Reg) (nn : Byte) : decode (encode (.ldVxNn x nn)) = .ldVxNn x nn := by
  rw [decode_of_selectOp (Laws.EncodeSelects.ldVxNn x nn rfl), encode, Op.instr, fieldX_encodeK, fieldNN_encodeK]

theorem decode_encode_addVxNn (x : Reg) (nn : Byte) : decode (encode (.addVxNn x nn)) = .addVxNn x nn := by
  rw [decode_of_selectOp (Laws.EncodeSelects.addVxNn x nn rfl), encode, Op.instr, fieldX_encodeK, fieldNN_encodeK]

namespace Machine

/-! ## The frame of the unflagged writes -/

/-- A write of an unflagged result changes at most its own register (R91). -/
theorem State.changesOnly_writeResult (s : State) (x : Reg) (result : Option Byte) :
    ChangesOnly [.reg x] s (s.writeResult x result) := by
  intro p hp
  cases p with
  | reg r =>
    have hr : r ≠ x := fun e => hp (by simp [e])
    exact (s.readV_writeResult x result r).trans (if_neg hr)
  | memory => exact s.writeResult_memRead x result
  | screen => exact s.writeResult_pixel x result
  | _ => simp [Part.same]

/-- A register write changes its own register only (R10). -/
theorem State.changesOnly_writeV (s : State) (r : Reg) (b : Byte) : ChangesOnly [.reg r] s (s.writeV r b) :=
  s.changesOnly_writeResult r (some b)

/-! ## The two meanings -/

theorem exec_ldVxNn (x : Reg) (nn : Byte) (s : State) : exec (.ldVxNn x nn) s = .next (s.writeV x nn) := rfl

theorem exec_addVxNn (x : Reg) (nn : Byte) (s : State) :
    exec (.addVxNn x nn) s = .next (s.writeResult x (addResult (s.readV x) nn)) := rfl

/-- What a register holds after an add: the sum when it fits in a byte, else the old value (R91, spec/43_alu.md R104). -/
theorem addResult_getD_toNat (vx k : Byte) :
    ((addResult vx k).getD vx).toNat = if vx.toNat + k.toNat ≤ 255 then vx.toNat + k.toNat else vx.toNat := by
  unfold addResult
  split
  · next hfits => exact (BitVec.toNat_ofNat _ _).trans (Nat.mod_eq_of_lt (Nat.lt_succ_of_le hfits))
  · rfl

/-- Settles O35: the word is the encoder's, and the write of `nn` to `V[x]` is the whole effect. -/
theorem ldVxNnLoadsConstant : Obligations.LdVxNnLoadsConstant := by
  intro x nn
  constructor
  · rw [← decode_encode_ldVxNn x nn]
    exact congrArg decode (ofNat_eq_encodeK 0x6 x nn)
  · intro s
    exact ⟨_, exec_ldVxNn x nn s, s.readV_writeV_self x nn, s.changesOnly_writeV x nn⟩

/-- Settles O36: the word is the encoder's, and the effect is the one unflagged write of a sum that fits. -/
theorem addVxNnStoresOnlyFittingSum : Obligations.AddVxNnStoresOnlyFittingSum := by
  intro x nn
  constructor
  · rw [← decode_encode_addVxNn x nn]
    exact congrArg decode (ofNat_eq_encodeK 0x7 x nn)
  · intro s
    refine ⟨_, exec_addVxNn x nn s, ?_, s.changesOnly_writeResult x _⟩
    rw [State.readV_writeResult, if_pos rfl, addResult_getD_toNat]

end Machine

end Sys2Proof
end

section
/-! The words of format R in the numbers of spec/30_encoding.md R52 and R55, and the register add of spec/43_alu.md R104,
which uses it: `ADD Vx, Vy`. -/

namespace Sys2Proof

/-! ## Format R -/

/-- Format R is format K with the byte `nn` made of the field `y` and the last digit (R51, R52). -/
theorem encodeXY_eq_encodeK (d : BitVec 4) (x y : Reg) (n : BitVec 4) :
    encodeXY d x y n = encodeK d x (BitVec.ofFin (w := 4) y ++ n) :=
  BitVec.append_assoc

/-- The word that a format R number stands for is the encoder's: the digits' weights are 4096, 256, 16 and 1. -/
theorem ofNat_eq_encodeXY (d : BitVec 4) (x y : Reg) (n : BitVec 4) :
    BitVec.ofNat 16 (4096 * d.toNat + 256 * x.val + 16 * y.val + n.toNat) = encodeXY d x y n := by
  have hlow : (BitVec.ofFin (w := 4) y ++ n).toNat = 16 * y.val + n.toNat := by
    rw [BitVec.toNat_append, ← Nat.shiftLeft_add_eq_or_of_lt n.isLt, Nat.shiftLeft_eq, Nat.mul_comm]
    rfl
  rw [encodeXY_eq_encodeK, ← ofNat_eq_encodeK, hlow, Nat.add_assoc]

theorem decode_encode_addVxVy (x y : Reg) : decode (encode (.addVxVy x y)) = .addVxVy x y := by
  rw [decode_of_selectOp (Laws.EncodeSelects.addVxVy x y rfl), encode, Op.instr, fieldX_encodeXY, fieldY_encodeXY]

/-- The words 8xy4 of R55 are the encoder's words of `ADD Vx, Vy`. -/
theorem ofNat_eq_encode_addVxVy (x y : Reg) :
    BitVec.ofNat 16 (0x8004 + 256 * x.val + 16 * y.val) = encode (.addVxVy x y) := by
  have hdigits : 0x8004 + 256 * x.val + 16 * y.val = 4096 * 8 + 256 * x.val + 16 * y.val + 4 := by omega
  rw [hdigits]
  exact ofNat_eq_encodeXY 0x8 x y 0x4

namespace Machine

/-- A write of a result and a flag changes at most the result's register and VF (R11, R109). -/
theorem State.changesOnly_writeResultThenFlag (s : State) (x : Reg) (result : Option Byte) (flag : Bool) :
    ChangesOnly [.reg x, .reg Reg.vf] s (s.writeResultThenFlag x result flag) := by
  intro p hp
  cases p with
  | reg r =>
    have hx : r ≠ x := fun e => hp (by simp [e])
    have hvf : r ≠ Reg.vf := fun e => hp (by simp [e])
    exact (s.readV_writeResultThenFlag x result flag r).trans ((if_neg hvf).trans (if_neg hx))
  | memory => exact s.writeResultThenFlag_memRead x result flag
  | screen => exact s.writeResultThenFlag_pixel x result flag
  | _ => simp [Part.same]

/-- VF holds the flag after a write of a result and a flag, also when the result went to VF (R11 (d)). -/
theorem State.readV_writeResultThenFlag_vf (s : State) (x : Reg) (result : Option Byte) (flag : Bool) :
    (s.writeResultThenFlag x result flag).readV Reg.vf = flagByte flag := by
  rw [State.readV_writeResultThenFlag, if_pos rfl]

/-- A register other than VF holds the result after a write of a result and a flag, or its old value when there is none. -/
theorem State.readV_writeResultThenFlag_self (s : State) {x : Reg} (hx : x ≠ Reg.vf) (result : Option Byte)
    (flag : Bool) : (s.writeResultThenFlag x result flag).readV x = result.getD (s.readV x) := by
  rw [State.readV_writeResultThenFlag, if_neg hx, if_pos rfl]

theorem exec_addVxVy (x y : Reg) (s : State) :
    exec (.addVxVy x y) s =
      .next (s.writeResultThenFlag x (addResult (s.readV x) (s.readV y)) (carries (s.readV x) (s.readV y))) := rfl

/-- The carry as a flag byte: 1 exactly when the sum exceeds 255 (R104). -/
theorem flagByte_carries (vx vy : Byte) :
    flagByte (carries vx vy) = if 255 < vx.toNat + vy.toNat then 1 else 0 := by
  simp only [flagByte, carries, decide_eq_true_eq]

/-- Settles O40: the word is the encoder's, and the effect is one write of a sum that fits, then of the carry. -/
theorem addVxVyResultAndCarry : Obligations.AddVxVyResultAndCarry := by
  intro x y
  constructor
  · rw [ofNat_eq_encode_addVxVy, decode_encode_addVxVy]
  · intro s
    refine ⟨_, exec_addVxVy x y s, ?_, fun hx => ?_, s.changesOnly_writeResultThenFlag x _ _⟩
    · rw [State.readV_writeResultThenFlag_vf, flagByte_carries]
    · rw [State.readV_writeResultThenFlag_self s hx, addResult_getD_toNat]
      simp only [← Nat.not_lt, ite_not]

end Machine

end Sys2Proof
end

section
/-! The no-op class of spec/45_unmatched_noop.md R130: which words are in it, and the cycle of such a word. -/

namespace Sys2Proof

/-! ## The unmatched words -/

/-- A word is unmatched when `w AND mask == match` fails in every row of R55. -/
theorem selectOp_eq_none_iff {w : Word} : selectOp w = none ↔ ∀ r ∈ opcodeTable, w &&& r.mask ≠ r.pattern := by
  simp only [selectOp, Option.map_eq_none_iff, List.find?_eq_none, OpcodeRow.selects, beq_iff_eq]

/-- A word that selects no row decodes to itself, kept whole (R58). -/
theorem decode_of_selectOp_eq_none {w : Word} (h : selectOp w = none) : decode w = .unmatched w := by
  rw [decode, h]

namespace Machine

/-! ## A cycle that does not fault -/

/-- The step of a core without fault, when its instruction latches none: the instruction's effect on the advanced state,
then the timer step (spec/40_cycle.md R70). -/
theorem step_of_exec {s u : State} (hs : s.fault = none) (hexec : exec (decode s.fetchWord) s.advancePc = .next u)
    (hu : u.fault = none) : step s = .next u.timerStep := by
  have hrun : s.halted = false := by rw [State.halted, hs, Option.isSome_none]
  have hend : u.halted = false := by rw [State.halted, hu, Option.isSome_none]
  rw [step_of_not_halted hrun, runInstr, hexec, ← State.finishCycle_of_not_halted hend]

/-- The host operation `execute_cycle` is the step, answered with the result of the cycle (spec/80_host_interface.md
R182). -/
theorem HostOp.apply_executeCycle_of_step (font : Config.Font) {s t : State} (h : step s = .next t) :
    HostOp.executeCycle.apply font s = .next (t, .cycle (cycleResult s t)) := by
  rw [step] at h
  rw [HostOp.apply, h]

/-- The host is answered `Ok` for a cycle with no fault before it and none after it (R182). -/
theorem cycleResult_eq_ok {s t : State} (hs : s.fault = none) (ht : t.fault = none) : cycleResult s t = .ok := by
  rw [cycleResult, hs, ht]

/-- What a cycle does around its instruction: the `pc` advance and the timer step (spec/40_cycle.md R70). -/
theorem State.changesOnly_advancePc_timerStep (s : State) :
    ChangesOnly [.pc, .delayTimer, .soundTimer] s s.advancePc.timerStep := by
  intro p hp
  cases p with
  | pc | delayTimer | soundTimer => exact absurd (by decide) hp
  | memory | screen => exact fun _ => by simp
  | _ => rfl

/-! ## The meaning and its cycle -/

theorem exec_unmatched (w : Word) (s : State) : exec (.unmatched w) s = .next s := rfl

/-- The cycle of an unmatched word is its `pc` advance and its timer step, with nothing between them (R130). -/
theorem step_of_unmatched {s : State} (hs : s.fault = none) (hword : selectOp s.fetchWord = none) :
    step s = .next s.advancePc.timerStep := by
  refine step_of_exec hs ?_ hs
  rw [decode_of_selectOp_eq_none hword, exec_unmatched]

/-- Settles O48: a word that selects no row decodes to the no-op, and its cycle is the `pc` advance and the timer step. -/
theorem unmatchedWordIsNoOp : Obligations.UnmatchedWordIsNoOp := by
  refine ⟨exec_unmatched, fun font s hs hrows => ?_⟩
  have hstep : step s = .next s.advancePc.timerStep := step_of_unmatched hs (selectOp_eq_none_iff.2 hrows)
  have hanswer : cycleResult s s.advancePc.timerStep = .ok := cycleResult_eq_ok hs hs
  refine ⟨_, hstep, rfl, countDown_toNat s.dt, countDown_toNat s.st, s.changesOnly_advancePc_timerStep, ?_⟩
  rw [HostOp.apply_executeCycle_of_step font hstep, hanswer]

end Machine

end Sys2Proof
end

section
/-! The defined no-ops of spec/60_exceptions.md R147: only `RET` can write the fault latch, so no other instruction is an
error. -/

namespace Sys2Proof.Machine

/-- Every instruction but `RET` completes and leaves the fault latch as it is, whatever its operands (R140, R147): its only
writes are to `pc`, the stack, `I`, the registers, the screen and `redraw`. -/
theorem exec_keeps_fault {i : Instr} (hi : i ≠ .ret) (s : State) : ∃ u, exec i s = .next u ∧ u.fault = s.fault := by
  cases i with
  | ret => exact absurd rfl hi
  | unmatched w => exact ⟨s, exec_unmatched w s, rfl⟩
  | cls => exact ⟨_, rfl, s.writeFb_fault _⟩
  | jp => exact ⟨_, rfl, s.writePc_fault _⟩
  | call => exact ⟨_, rfl, (State.writePc_fault _ _).trans (s.push_fault _)⟩
  | ldINnn => exact ⟨_, rfl, s.writeI_fault _⟩
  | ldVxNn | ldVxVy | or | and | xor => exact ⟨_, rfl, s.writeV_fault _ _⟩
  | addVxNn x nn => exact ⟨_, exec_addVxNn x nn s, s.writeResult_fault _ _⟩
  | addVxVy | sub | subn | shr | shl => exact ⟨_, rfl, s.writeResultThenFlag_fault _ _ _⟩
  | drw =>
    refine ⟨_, rfl, ?_⟩
    rw [State.writeRedraw_fault, State.writeFlag_fault, State.writeFb_fault]

/-- Settles O20: the instruction keeps the empty latch, so the cycle ends with the timer step and the host is told `Ok`. -/
theorem definedNoOpsAreNoErrors : Obligations.DefinedNoOpsAreNoErrors := by
  intro font s hs hret
  obtain ⟨u, hexec, hkeep⟩ := exec_keeps_fault hret s.advancePc
  have hu : u.fault = none := hkeep.trans (s.advancePc_fault.trans hs)
  have hstep : step s = .next u.timerStep := step_of_exec hs hexec hu
  have ht : u.timerStep.fault = none := u.timerStep_fault.trans hu
  refine ⟨_, hstep, ht, ?_⟩
  rw [HostOp.apply_executeCycle_of_step font hstep, cycleResult_eq_ok hs ht]

end Sys2Proof.Machine
end

section
/-! The decoder and the encoder are inverse to each other (spec/30_encoding.md R51, R57, R62), and each row of the
opcode map R55 in the digits of the word: what its mask and its match test. -/

namespace Sys2Proof

/-! ## Decoding what was encoded -/

/-- The encoder's word of a well-formed instruction selects the instruction's own row (R55). -/
theorem selectOp_encode : ∀ {i : Instr}, i.wellFormed = true → selectOp (encode i) = i.op
  | .cls, h => Laws.EncodeSelects.cls h
  | .ret, h => Laws.EncodeSelects.ret h
  | .jp nnn, h => Laws.EncodeSelects.jp nnn h
  | .call nnn, h => Laws.EncodeSelects.call nnn h
  | .ldVxNn x nn, h => Laws.EncodeSelects.ldVxNn x nn h
  | .addVxNn x nn, h => Laws.EncodeSelects.addVxNn x nn h
  | .ldINnn nnn, h => Laws.EncodeSelects.ldINnn nnn h
  | .ldVxVy x y, h => Laws.EncodeSelects.ldVxVy x y h
  | .or x y, h => Laws.EncodeSelects.or x y h
  | .and x y, h => Laws.EncodeSelects.and x y h
  | .xor x y, h => Laws.EncodeSelects.xor x y h
  | .addVxVy x y, h => Laws.EncodeSelects.addVxVy x y h
  | .sub x y, h => Laws.EncodeSelects.sub x y h
  | .subn x y, h => Laws.EncodeSelects.subn x y h
  | .shr x y, h => Laws.EncodeSelects.shr x y h
  | .shl x y, h => Laws.EncodeSelects.shl x y h
  | .drw x y n, h => Laws.EncodeSelects.drw x y n h
  | .unmatched w, h => Laws.EncodeSelects.unmatched w h

/-- The row of an instruction reads the operands back from the encoder's word, format by format (R52). -/
theorem instr_encode {i : Instr} {op : Op} (h : i.op = some op) : op.instr (encode i) = i := by
  cases i <;> cases h
  case cls | ret => rfl
  case jp nnn | call nnn | ldINnn nnn => exact congrArg _ (fieldNNN_encodeA _ nnn)
  case ldVxNn x nn | addVxNn x nn => exact congr (congrArg _ (fieldX_encodeK _ x nn)) (fieldNN_encodeK _ x nn)
  case drw x y n => exact congr (congr (congrArg _ (fieldX_encodeXY ..)) (fieldY_encodeXY ..)) (fieldN_encodeXY ..)
  all_goals exact congr (congrArg _ (fieldX_encodeXY ..)) (fieldY_encodeXY ..)

/-- Settles O4: the word selects the instruction's row, and the row reads the operands back; a word of no row is kept.
-/
theorem decodeEncodeAgree : Obligations.DecodeEncodeAgree := by
  intro i hi
  have hsel : selectOp (encode i) = i.op := selectOp_encode hi
  cases hop : i.op with
  | some op => rw [decode_of_selectOp (hsel.trans hop), instr_encode hop]
  | none =>
    rw [decode_of_selectOp_eq_none (hsel.trans hop)]
    cases i with
    | unmatched w => rfl
    | _ => cases hop

/-! ## The operand fields as numbers (R51) -/

theorem fieldX_val (w : Word) : (fieldX w).val = w.toNat / 256 % 16 := by
  simp [fieldX, Nat.shiftRight_eq_div_pow]

theorem fieldY_val (w : Word) : (fieldY w).val = w.toNat / 16 % 16 := by
  simp [fieldY, Nat.shiftRight_eq_div_pow]

theorem fieldN_val (w : Word) : (fieldN w).val = w.toNat % 16 := by
  simp [fieldN]

theorem fieldNN_toNat (w : Word) : (fieldNN w).toNat = w.toNat % 256 := by
  simp [fieldNN]

theorem fieldNNN_toNat (w : Word) : (fieldNNN w).toNat = w.toNat % 4096 := by
  simp [fieldNNN]

/-- Masking a field of `k` bits at bit `j` and shifting it down reads it: a quotient and a remainder. -/
theorem and_mask_shiftRight (a j k : Nat) :
    (a &&& (2 ^ k - 1) <<< j) >>> j = a / 2 ^ j % 2 ^ k := by
  rw [Nat.shiftRight_and_distrib, Nat.shiftLeft_shiftRight, Nat.and_two_pow_sub_one_eq_mod, Nat.shiftRight_eq_div_pow]

/-- Settles O2: each masked and shifted field is a quotient and a remainder of the word, and these overlap as digits
do. -/
theorem operandFieldsAreTheSourceMasks : Obligations.OperandFieldsAreTheSourceMasks := by
  intro w
  rw [fieldX_val, fieldY_val, fieldN_val, fieldNN_toNat, fieldNNN_toNat]
  exact ⟨(and_mask_shiftRight w.toNat 8 4).symm, (and_mask_shiftRight w.toNat 4 4).symm,
    (Nat.and_two_pow_sub_one_eq_mod w.toNat 4).symm, (Nat.and_two_pow_sub_one_eq_mod w.toNat 8).symm,
    (Nat.and_two_pow_sub_one_eq_mod w.toNat 12).symm, by omega, by omega⟩

/-! ## Which row a word selects (R54, R55) -/

/-- Settles O3: of two different rows, one asks for a bit under both masks that the other's match has otherwise. -/
theorem opcodeRowsDisjoint : Obligations.OpcodeRowsDisjoint := by
  intro w r q hr hq hwr hwq
  have hclash : ∀ r ∈ opcodeTable, ∀ q ∈ opcodeTable, r ≠ q → r.pattern &&& q.mask ≠ q.pattern &&& r.mask := by decide
  by_contra hne
  have hwr : w &&& r.mask = r.pattern := beq_iff_eq.1 hwr
  have hwq : w &&& q.mask = q.pattern := beq_iff_eq.1 hwq
  apply hclash r hr q hq hne
  rw [← hwr, ← hwq, BitVec.and_assoc, BitVec.and_assoc, BitVec.and_comm r.mask]

/-- What the row of an instruction tests of a word, in its digits (R54): the class, and in class 0 the byte nn, in
class 8 the digit n. -/
def Op.Selects (w : Word) : Op → Prop
  | .cls => w.toNat / 4096 = 0 ∧ w.toNat % 256 = 0xE0
  | .ret => w.toNat / 4096 = 0 ∧ w.toNat % 256 = 0xEE
  | .jp => w.toNat / 4096 = 1
  | .call => w.toNat / 4096 = 2
  | .ldVxNn => w.toNat / 4096 = 6
  | .addVxNn => w.toNat / 4096 = 7
  | .ldINnn => w.toNat / 4096 = 0xA
  | .ldVxVy => w.toNat / 4096 = 8 ∧ w.toNat % 16 = 0
  | .or => w.toNat / 4096 = 8 ∧ w.toNat % 16 = 1
  | .and => w.toNat / 4096 = 8 ∧ w.toNat % 16 = 2
  | .xor => w.toNat / 4096 = 8 ∧ w.toNat % 16 = 3
  | .addVxVy => w.toNat / 4096 = 8 ∧ w.toNat % 16 = 4
  | .sub => w.toNat / 4096 = 8 ∧ w.toNat % 16 = 5
  | .shr => w.toNat / 4096 = 8 ∧ w.toNat % 16 = 6
  | .subn => w.toNat / 4096 = 8 ∧ w.toNat % 16 = 7
  | .shl => w.toNat / 4096 = 8 ∧ w.toNat % 16 = 0xE
  | .drw => w.toNat / 4096 = 0xD

/-- A mask of the opcode map keeps the class digit and some bits of nn (R54). -/
theorem toNat_and_mask (w : Word) (m : Byte) :
    (w &&& encodeK 0xF 0 m).toNat = 4096 * (w.toNat / 4096) + (w.toNat % 256 &&& m.toNat) := by
  have hkey : w &&& encodeK 0xF 0 m = encodeK (classDigit w) 0 (fieldNN w &&& m) := by
    apply word_ext
    intro i hi
    rw [BitVec.getLsbD_and, getLsbD_encodeK, getLsbD_encodeK]
    interval_cases i <;> simp [fieldNN]
  have hclass : (classDigit w).toNat = w.toNat / 4096 := by
    rw [classDigit, BitVec.extractLsb'_toNat, Nat.shiftRight_eq_div_pow]
    omega
  rw [hkey, encodeK_toNat, hclass, BitVec.toNat_and, fieldNN_toNat]
  rfl

theorem toNat_and_F000 (w : Word) : (w &&& 0xF000).toNat = 4096 * (w.toNat / 4096) :=
  (toNat_and_mask w 0).trans (by simp)

theorem toNat_and_F00F (w : Word) : (w &&& 0xF00F).toNat = 4096 * (w.toNat / 4096) + w.toNat % 16 := by
  have hlow : w.toNat % 256 &&& 15 = w.toNat % 256 % 16 := Nat.and_two_pow_sub_one_eq_mod _ 4
  exact (toNat_and_mask w 0x0F).trans (by simp [hlow])

theorem toNat_and_F0FF (w : Word) : (w &&& 0xF0FF).toNat = 4096 * (w.toNat / 4096) + w.toNat % 256 := by
  have hlow : w.toNat % 256 &&& 255 = w.toNat % 256 % 256 := Nat.and_two_pow_sub_one_eq_mod _ 8
  exact (toNat_and_mask w 0xFF).trans (by simp [hlow])

/-- A row of R55 selects exactly the words with its digits. -/
theorem OpcodeRow.selects_iff {r : OpcodeRow} (hr : r ∈ opcodeTable) (w : Word) :
    r.selects w = true ↔ r.op.Selects w := by
  have hw := w.isLt
  simp only [opcodeTable, List.mem_cons, List.not_mem_nil, or_false] at hr
  rcases hr with rfl | rfl | rfl | rfl | rfl | rfl | rfl | rfl | rfl | rfl | rfl | rfl | rfl | rfl | rfl | rfl | rfl <;>
    simp only [OpcodeRow.selects, Op.Selects, beq_iff_eq, ← BitVec.toNat_inj, toNat_and_F000, toNat_and_F00F,
      toNat_and_F0FF, BitVec.reduceToNat] <;>
    omega

/-- A word selects a row when it has the row's digits; the rows being disjoint, the order of testing does not matter. -/
theorem selectOp_eq_some_iff {w : Word} {op : Op} : selectOp w = some op ↔ op.Selects w := by
  constructor
  · intro h
    obtain ⟨r, hfind, rfl⟩ := Option.map_eq_some_iff.1 h
    have hsel : r.selects w = true := by simpa using List.find?_some hfind
    exact (OpcodeRow.selects_iff (List.mem_of_find?_eq_some hfind) w).1 hsel
  · intro h
    obtain ⟨r, hr, rfl⟩ : ∃ r ∈ opcodeTable, r.op = op := by cases op <;> decide
    have hsel := (OpcodeRow.selects_iff hr w).2 h
    cases hq : opcodeTable.find? (·.selects w) with
    | none => exact absurd hsel (List.find?_eq_none.1 hq r hr)
    | some q =>
      have hqsel : q.selects w = true := by simpa using List.find?_some hq
      rw [selectOp, hq, opcodeRowsDisjoint w r q hr (List.mem_of_find?_eq_some hq) hsel hqsel, Option.map_some]

/-- A word is unmatched when it has the digits of no row (R58). -/
theorem decode_eq_unmatched_iff (w : Word) : decode w = .unmatched w ↔ ∀ op : Op, ¬op.Selects w := by
  simp only [← selectOp_eq_some_iff]
  cases hsel : selectOp w with
  | none => simp [decode_of_selectOp_eq_none hsel]
  | some op => cases op <;> simp [decode_of_selectOp hsel, Op.instr]

/-- Settles O7: the class of a word leaves no row, or one row, or the two rows of class 0 or the nine of class 8 to
exclude. -/
theorem unmatchedWordsExactly : Obligations.UnmatchedWordsExactly := by
  intro w
  have hw := w.isLt
  simp only [decode_eq_unmatched_iff, List.mem_cons, List.not_mem_nil, or_false]
  constructor
  · intro h
    by_cases h0 : w.toNat / 4096 = 0
    · exact .inl ⟨h0, fun e => h .cls ⟨h0, e⟩, fun e => h .ret ⟨h0, e⟩⟩
    by_cases h8 : w.toNat / 4096 = 8
    · refine .inr (.inr ⟨h8, ?_⟩)
      have hn : ∀ {n : Nat}, ¬(w.toNat / 4096 = 8 ∧ w.toNat % 16 = n) → w.toNat % 16 ≠ n := fun h e => h ⟨h8, e⟩
      have hcopy : w.toNat % 16 ≠ 0 := hn (h .ldVxVy)
      have hor : w.toNat % 16 ≠ 1 := hn (h .or)
      have hand : w.toNat % 16 ≠ 2 := hn (h .and)
      have hxor : w.toNat % 16 ≠ 3 := hn (h .xor)
      have hadd : w.toNat % 16 ≠ 4 := hn (h .addVxVy)
      have hsub : w.toNat % 16 ≠ 5 := hn (h .sub)
      have hshr : w.toNat % 16 ≠ 6 := hn (h .shr)
      have hsubn : w.toNat % 16 ≠ 7 := hn (h .subn)
      have hshl : w.toNat % 16 ≠ 0xE := hn (h .shl)
      omega
    · refine .inr (.inl ?_)
      have hjp : w.toNat / 4096 ≠ 1 := h .jp
      have hcall : w.toNat / 4096 ≠ 2 := h .call
      have hld : w.toNat / 4096 ≠ 6 := h .ldVxNn
      have hadd : w.toNat / 4096 ≠ 7 := h .addVxNn
      have hldI : w.toNat / 4096 ≠ 0xA := h .ldINnn
      have hdrw : w.toNat / 4096 ≠ 0xD := h .drw
      omega
  · intro h op hop
    cases op <;> simp only [Op.Selects] at hop <;> omega

/-! ## Decoding gives an instruction of the machine, and encoding it gives the word back -/

theorem instr_wellFormed (op : Op) (w : Word) : (op.instr w).wellFormed = true := by
  cases op <;> rfl

/-- Settles O6: a row gives an instruction whatever the operands, and no row gives the word that selects none. -/
theorem decodedIsWellFormed : Obligations.DecodedIsWellFormed := by
  intro w
  cases hsel : selectOp w with
  | some op => rw [decode_of_selectOp hsel, instr_wellFormed]
  | none => rw [decode_of_selectOp_eq_none hsel, Instr.wellFormed, hsel, Option.isNone_none]

/-- A word is written again from its class digit, x and nn (format K, R52). -/
theorem encodeK_fields {w : Word} {d : BitVec 4} (hd : w.toNat / 4096 = d.toNat) :
    encodeK d (fieldX w) (fieldNN w) = w := by
  have hdigits : 4096 * d.toNat + 256 * (fieldX w).val + (fieldNN w).toNat = w.toNat := by
    rw [fieldX_val, fieldNN_toNat, ← hd]
    omega
  rw [← ofNat_eq_encodeK, hdigits, BitVec.ofNat_toNat, BitVec.setWidth_eq]

/-- A word is written again from its four digits (formats R and D). -/
theorem encodeXY_fields {w : Word} {d n : BitVec 4} (hd : w.toNat / 4096 = d.toNat) (hn : w.toNat % 16 = n.toNat) :
    encodeXY d (fieldX w) (fieldY w) n = w := by
  have hdigits : 4096 * d.toNat + 256 * (fieldX w).val + 16 * (fieldY w).val + n.toNat = w.toNat := by
    rw [fieldX_val, fieldY_val, ← hd, ← hn]
    omega
  rw [← ofNat_eq_encodeXY, hdigits, BitVec.ofNat_toNat, BitVec.setWidth_eq]

/-- A word is written again from its class digit and nnn (format A). -/
theorem encodeA_fields {w : Word} {d : BitVec 4} (hd : w.toNat / 4096 = d.toNat) : encodeA d (fieldNNN w) = w := by
  apply BitVec.eq_of_toNat_eq
  rw [encodeA, BitVec.toNat_append, ← Nat.shiftLeft_add_eq_or_of_lt (BitVec.isLt _), fieldNNN_toNat,
    Nat.shiftLeft_eq, ← hd]
  omega

/-- Re-encoding the operands that a row reads from a word with its digits gives the word back, but for the ignored x
of `CLS` and `RET` (R60, R62). -/
theorem encode_instr {op : Op} {w : Word} (h : op.Selects w) :
    encode (op.instr w) = if op = .cls then 0x00E0 else if op = .ret then 0x00EE else w := by
  cases op
  case cls | ret => rfl
  case jp | call | ldINnn => exact encodeA_fields h
  case ldVxNn | addVxNn => exact encodeK_fields h
  case drw => exact encodeXY_fields h (fieldN_val w).symm
  all_goals exact encodeXY_fields h.1 h.2

/-- Settles O5: each row writes its word again, and its digits say whether it is `CLS`, `RET` or another; the word
written is well-formed, so it decodes to the same. -/
theorem encodeDecodeCanonical : Obligations.EncodeDecodeCanonical := by
  intro w
  refine ⟨?_, decodeEncodeAgree _ (decodedIsWellFormed w)⟩
  cases hsel : selectOp w with
  | none =>
    have hno : ∀ op : Op, ¬op.Selects w := fun op h => by simp [selectOp_eq_some_iff.2 h] at hsel
    have hcls : ¬(w.toNat / 4096 = 0 ∧ w.toNat % 256 = 0xE0) := hno .cls
    have hret : ¬(w.toNat / 4096 = 0 ∧ w.toNat % 256 = 0xEE) := hno .ret
    rw [decode_of_selectOp_eq_none hsel, if_neg hcls, if_neg hret]
    rfl
  | some op =>
    have hop : op.Selects w := selectOp_eq_some_iff.1 hsel
    rw [decode_of_selectOp hsel, encode_instr hop]
    cases op <;> simp only [Op.Selects] at hop ⊢ <;> simp [hop]

/-- Settles O1: each of the words selects its row, and the row reads its operands. -/
theorem specWordsDecode : Obligations.SpecWordsDecode := by
  unfold Obligations.SpecWordsDecode
  decide

end Sys2Proof
end

section
/-! The access matrix of spec/10_state.md R25: the frame of each write, what each instruction writes, and what it
reads. -/

namespace Sys2Proof.Machine

/-! ## Agreement on a part, and frames -/

@[simp] theorem Part.same_refl (p : Part) (s : State) : p.same s s := by
  cases p <;> simp [Part.same]

theorem Part.same_trans {p : Part} {s t u : State} (h : p.same s t) (h' : p.same t u) : p.same s u := by
  cases p with
  | memory => exact fun addr => (h' addr).trans (h addr)
  | screen => exact fun px py => (h' px py).trans (h px py)
  | _ => exact Eq.trans h' h

/-- Two changes one after the other change at most the parts of both. -/
theorem ChangesOnly.append {ps qs : List Part} {s t u : State} (h : ChangesOnly ps s t) (h' : ChangesOnly qs t u) :
    ChangesOnly (ps ++ qs) s u := fun p hp =>
  Part.same_trans (h p fun hps => hp (List.mem_append_left qs hps)) (h' p fun hqs => hp (List.mem_append_right ps hqs))

/-- A frame may list more parts. -/
theorem ChangesOnly.mono {ps qs : List Part} {s t : State} (h : ChangesOnly ps s t) (hsub : ps ⊆ qs) :
    ChangesOnly qs s t := fun p hp => h p fun hps => hp (hsub hps)

theorem State.changesOnly_writePc (s : State) (w : Word) : ChangesOnly [.pc] s (s.writePc w) := by
  intro p hp
  cases p <;> simp_all [Part.same]

theorem State.changesOnly_writeI (s : State) (w : Word) : ChangesOnly [.index] s (s.writeI w) := by
  intro p hp
  cases p <;> simp_all [Part.same]

theorem State.changesOnly_push (s : State) (w : Word) : ChangesOnly [.stack] s (s.push w) := by
  intro p hp
  cases p <;> simp_all [Part.same]

theorem State.changesOnly_dropTop (s : State) : ChangesOnly [.stack] s s.dropTop := by
  intro p hp
  cases p <;> simp_all [Part.same]

theorem State.changesOnly_writeFb (s : State) (fb : Framebuffer) : ChangesOnly [.screen] s (s.writeFb fb) := by
  intro p hp
  cases p <;> simp_all [Part.same]

theorem State.changesOnly_writeRedraw (s : State) (b : Bool) : ChangesOnly [.redraw] s (s.writeRedraw b) := by
  intro p hp
  cases p <;> simp_all [Part.same]

theorem State.changesOnly_raiseStackUnderflow (s : State) (a : Word) :
    ChangesOnly [.fault] s (s.raiseStackUnderflow a) := by
  intro p hp
  cases p <;> simp_all [Part.same]

theorem State.changesOnly_writeFlag (s : State) (flag : Bool) : ChangesOnly [.reg Reg.vf] s (s.writeFlag flag) :=
  s.changesOnly_writeV Reg.vf _

/-! ## One equation per instruction (the immediate ones, `ADD Vx, Vy` and the no-op have theirs above) -/

theorem exec_cls (s : State) : exec .cls s = .next (s.writeFb Framebuffer.clear) := rfl

/-- `RET` with an empty stack (R81, spec/60_exceptions.md R141). -/
theorem exec_ret_of_empty {s : State} (h : s.stack = []) :
    exec .ret s = .next (s.raiseStackUnderflow (s.pc - 2)) := by
  rw [exec, execRet, h, State.instrAddr]

/-- `RET` with a stack that is not empty (R81). -/
theorem exec_ret_of_cons {s : State} {top : Word} {rest : List Word} (h : s.stack = top :: rest) :
    exec .ret s = .next (s.dropTop.writePc top) := by
  rw [exec, execRet, h]

theorem exec_jp (nnn : BitVec 12) (s : State) : exec (.jp nnn) s = .next (s.writePc (addrConst nnn)) := rfl

theorem exec_call (nnn : BitVec 12) (s : State) :
    exec (.call nnn) s = .next ((s.push s.pc).writePc (addrConst nnn)) := rfl

theorem exec_ldINnn (nnn : BitVec 12) (s : State) : exec (.ldINnn nnn) s = .next (s.writeI (addrConst nnn)) := rfl

theorem exec_ldVxVy (x y : Reg) (s : State) : exec (.ldVxVy x y) s = .next (s.writeV x (s.readV y)) := rfl

theorem exec_or (x y : Reg) (s : State) : exec (.or x y) s = .next (s.writeV x (s.readV x ||| s.readV y)) := rfl

theorem exec_and (x y : Reg) (s : State) : exec (.and x y) s = .next (s.writeV x (s.readV x &&& s.readV y)) := rfl

theorem exec_xor (x y : Reg) (s : State) : exec (.xor x y) s = .next (s.writeV x (s.readV x ^^^ s.readV y)) := rfl

theorem exec_sub (x y : Reg) (s : State) :
    exec (.sub x y) s =
      .next (s.writeResultThenFlag x (subResult (s.readV x) (s.readV y)) (!borrows (s.readV x) (s.readV y))) := rfl

theorem exec_subn (x y : Reg) (s : State) :
    exec (.subn x y) s =
      .next (s.writeResultThenFlag x (subResult (s.readV y) (s.readV x)) (!borrows (s.readV y) (s.readV x))) := rfl

theorem exec_shr (x y : Reg) (s : State) :
    exec (.shr x y) s =
      .next (s.writeResultThenFlag x (some (shrResult (s.readV y))) (shiftFlag (s.readV y))) := rfl

theorem exec_shl (x y : Reg) (s : State) :
    exec (.shl x y) s =
      .next (s.writeResultThenFlag x (some (shlResult (s.readV y))) (shiftFlag (s.readV y))) := rfl

/-- The state after a `DRW` whose sprite gave the canvas `c`: the picture, VF the collision, `redraw` set (R120). -/
def State.showCanvas (s : State) (c : Canvas) : State := ((s.writeFb c.fb).writeFlag c.collision).writeRedraw true

theorem exec_drw (x y : Reg) (n : Fin 16) (s : State) :
    exec (.drw x y n) s = .next (s.showCanvas (s.drawSprite x y n)) := rfl

@[simp] theorem State.showCanvas_redraw (s : State) (c : Canvas) : (s.showCanvas c).redraw = true := rfl

@[simp] theorem State.showCanvas_pixel (s : State) (c : Canvas) (px : Fin 64) (py : Fin 32) :
    (s.showCanvas c).pixel px py = Framebuffer.pixel c.fb px py := rfl

@[simp] theorem State.showCanvas_readV_vf (s : State) (c : Canvas) :
    (s.showCanvas c).readV Reg.vf = flagByte c.collision := by
  rw [State.showCanvas, State.writeRedraw_readV, State.readV_writeFlag, if_pos rfl]

theorem State.changesOnly_showCanvas (s : State) (c : Canvas) :
    ChangesOnly [.reg Reg.vf, .screen, .redraw] s (s.showCanvas c) :=
  (((s.changesOnly_writeFb c.fb).append (State.changesOnly_writeFlag _ c.collision)).append
    (State.changesOnly_writeRedraw _ true)).mono (by simp)

/-! ## What an instruction writes -/

/-- Settles O27: each instruction is made of writes whose frames are the matrix's `w` cells. -/
theorem accessMatrixWrites : Obligations.AccessMatrixWrites := by
  intro i s t h
  cases i with
  | ret =>
    cases hstack : s.stack with
    | nil =>
      cases (exec_ret_of_empty hstack).symm.trans h
      exact (s.changesOnly_raiseStackUnderflow _).mono (by simp [writesOf])
    | cons top rest =>
      cases (exec_ret_of_cons hstack).symm.trans h
      exact (s.changesOnly_dropTop.append (State.changesOnly_writePc _ top)).mono (by simp [writesOf])
  | cls => cases h; exact s.changesOnly_writeFb _
  | jp => cases h; exact s.changesOnly_writePc _
  | call =>
    cases h
    exact ((s.changesOnly_push s.pc).append (State.changesOnly_writePc _ _)).mono (by simp [writesOf])
  | ldINnn => cases h; exact s.changesOnly_writeI _
  | ldVxNn | ldVxVy | or | and | xor => cases h; exact s.changesOnly_writeV _ _
  | addVxNn => cases h; exact s.changesOnly_writeResult _ _
  | addVxVy | sub | subn | shr | shl =>
    cases h
    exact s.changesOnly_writeResultThenFlag _ _ _
  | drw x y n => cases h; exact s.changesOnly_showCanvas _
  | unmatched => cases h; exact fun p _ => p.same_refl s

/-! ## What an instruction reads -/

/-- The rows of a sprite are bytes of memory at `I` (R126). -/
theorem State.spriteRow_congr {s s' : State} (hi : Part.index.same s s') (hmem : Part.memory.same s s') :
    s'.spriteRow = s.spriteRow := by
  have hi : s'.i = s.i := hi
  funext r
  rw [State.spriteRow, hi]
  exact hmem _

/-- The sprite is drawn from the coordinates, `I`, memory and the picture alone (R120). -/
theorem State.drawSprite_congr {s s' : State} {x y : Reg} (n : Fin 16) (hx : (Part.reg x).same s s')
    (hy : (Part.reg y).same s s') (hi : Part.index.same s s') (hmem : Part.memory.same s s')
    (hscreen : Part.screen.same s s') : s'.drawSprite x y n = s.drawSprite x y n := by
  have hx : s'.readV x = s.readV x := hx
  have hy : s'.readV y = s.readV y := hy
  have hfb : s'.fb = s.fb := Framebuffer.ext_pixel hscreen
  rw [State.drawSprite, State.drawSprite, hx, hy, State.spriteRow_congr hi hmem, hfb]

/-! The same write to two states that agree on a part leaves them agreeing on it. -/

theorem Part.same_writeResultThenFlag {p : Part} {s s' : State} (h : p.same s s') (x : Reg) (result : Option Byte)
    (flag : Bool) : p.same (s.writeResultThenFlag x result flag) (s'.writeResultThenFlag x result flag) := by
  cases p with
  | reg r =>
    have h : s'.readV r = s.readV r := h
    change State.readV _ r = State.readV _ r
    rw [State.readV_writeResultThenFlag, State.readV_writeResultThenFlag, h]
    by_cases hr : r = x
    · rw [← hr, h]
    · rw [if_neg hr, if_neg hr]
  | _ => simp_all [Part.same]

theorem Part.same_writeResult {p : Part} {s s' : State} (h : p.same s s') (x : Reg) (result : Option Byte) :
    p.same (s.writeResult x result) (s'.writeResult x result) := by
  cases p with
  | reg r =>
    have h : s'.readV r = s.readV r := h
    change State.readV _ r = State.readV _ r
    rw [State.readV_writeResult, State.readV_writeResult, h]
    by_cases hr : r = x
    · rw [← hr, h]
    · rw [if_neg hr, if_neg hr]
  | _ => simp_all [Part.same]

theorem Part.same_writeV {p : Part} {s s' : State} (h : p.same s s') (x : Reg) (b : Byte) :
    p.same (s.writeV x b) (s'.writeV x b) := Part.same_writeResult h x (some b)

theorem Part.same_writePc {p : Part} {s s' : State} (h : p.same s s') (w : Word) :
    p.same (s.writePc w) (s'.writePc w) := by
  cases p <;> simp_all [Part.same]

theorem Part.same_writeI {p : Part} {s s' : State} (h : p.same s s') (w : Word) :
    p.same (s.writeI w) (s'.writeI w) := by
  cases p <;> simp_all [Part.same]

theorem Part.same_push {p : Part} {s s' : State} (h : p.same s s') (w : Word) : p.same (s.push w) (s'.push w) := by
  cases p <;> simp_all [Part.same]

theorem Part.same_dropTop {p : Part} {s s' : State} (h : p.same s s') : p.same s.dropTop s'.dropTop := by
  cases p <;> simp_all [Part.same]

theorem Part.same_writeFb {p : Part} {s s' : State} (h : p.same s s') (fb : Framebuffer) :
    p.same (s.writeFb fb) (s'.writeFb fb) := by
  cases p <;> simp_all [Part.same, State.pixel_writeFb]

theorem Part.same_writeRedraw {p : Part} {s s' : State} (h : p.same s s') (b : Bool) :
    p.same (s.writeRedraw b) (s'.writeRedraw b) := by
  cases p <;> simp_all [Part.same]

theorem Part.same_showCanvas {p : Part} {s s' : State} (h : p.same s s') (c : Canvas) :
    p.same (s.showCanvas c) (s'.showCanvas c) :=
  Part.same_writeRedraw (Part.same_writeV (Part.same_writeFb h c.fb) Reg.vf _) true

/-- The latch after two `RET`s with an empty stack is the same when `pc` is; every other part agrees as before. -/
theorem Part.same_raiseStackUnderflow {p : Part} {s s' : State} (h : p.same s s') (hpc : p = .fault → s'.pc = s.pc) :
    p.same (s.raiseStackUnderflow (s.pc - 2)) (s'.raiseStackUnderflow (s'.pc - 2)) := by
  cases p <;> simp_all [Part.same]

/-- Settles O28: two states that agree on the `r` cells make the same writes, and a write keeps agreement on every
part. -/
theorem accessMatrixReads : Obligations.AccessMatrixReads := by
  intro i s s' t t' h h' p hsame
  have hp : p.same s s' := hsame p (.inr (.inl rfl))
  have hread : ∀ r, .reg r ∈ readsOf i → s'.readV r = s.readV r := fun r hr => hsame (.reg r) (.inl hr)
  cases i with
  | ret =>
    have hstack' : s'.stack = s.stack := hsame .stack (.inl (by simp [readsOf]))
    cases hstack : s.stack with
    | nil =>
      cases (exec_ret_of_empty hstack).symm.trans h
      cases (exec_ret_of_empty (hstack'.trans hstack)).symm.trans h'
      exact Part.same_raiseStackUnderflow hp fun hfault => hsame .pc (.inr (.inr ⟨rfl, hfault, rfl⟩))
    | cons top rest =>
      cases (exec_ret_of_cons hstack).symm.trans h
      cases (exec_ret_of_cons (hstack'.trans hstack)).symm.trans h'
      exact Part.same_writePc (Part.same_dropTop hp) top
  | call =>
    have hpc : s'.pc = s.pc := hsame .pc (.inl (by simp [readsOf]))
    cases h; cases h'
    rw [hpc]
    exact Part.same_writePc (Part.same_push hp _) _
  | drw x y n =>
    have hcanvas : s'.drawSprite x y n = s.drawSprite x y n := State.drawSprite_congr n
      (hread x (by simp [readsOf])) (hread y (by simp [readsOf])) (hsame .index (.inl (by simp [readsOf])))
      (hsame .memory (.inl (by simp [readsOf]))) (hsame .screen (.inl (by simp [readsOf])))
    rw [exec_drw] at h h'
    cases h; cases h'
    rw [hcanvas]
    exact Part.same_showCanvas hp _
  | cls => cases h; cases h'; exact Part.same_writeFb hp _
  | jp => cases h; cases h'; exact Part.same_writePc hp _
  | ldINnn => cases h; cases h'; exact Part.same_writeI hp _
  | ldVxNn => cases h; cases h'; exact Part.same_writeV hp _ _
  | unmatched => cases h; cases h'; exact hp
  | addVxNn x nn =>
    cases h; cases h'
    rw [hread x (by simp [readsOf])]
    exact Part.same_writeResult hp _ _
  | ldVxVy x y =>
    cases h; cases h'
    rw [hread y (by simp [readsOf])]
    exact Part.same_writeV hp _ _
  | or x y | and x y | xor x y =>
    cases h; cases h'
    rw [hread x (by simp [readsOf]), hread y (by simp [readsOf])]
    exact Part.same_writeV hp _ _
  | addVxVy x y | sub x y | subn x y =>
    cases h; cases h'
    rw [hread x (by simp [readsOf]), hread y (by simp [readsOf])]
    exact Part.same_writeResultThenFlag hp _ _ _
  | shr x y | shl x y =>
    cases h; cases h'
    rw [hread y (by simp [readsOf])]
    exact Part.same_writeResultThenFlag hp _ _ _

end Sys2Proof.Machine
end

section
/-! What a whole cycle does (spec/40_cycle.md): the instruction between the `pc` advance and the timer step, the one
fault, and what follows for `pc`, the timers, memory and the invariant. -/

namespace Sys2Proof.Machine

/-! ## The instruction alone -/

/-- Every instruction answers a next state: no word is refused (R57, R75). -/
theorem exec_answers (i : Instr) (s : State) : ∃ u, exec i s = .next u := by
  by_cases hi : i = .ret
  · subst hi
    cases hstack : s.stack with
    | nil => exact ⟨_, exec_ret_of_empty hstack⟩
    | cons top rest => exact ⟨_, exec_ret_of_cons hstack⟩
  · obtain ⟨u, hu, _⟩ := exec_keeps_fault hi s
    exact ⟨u, hu⟩

/-- Only `RET` with an empty stack writes the latch (R140). -/
theorem exec_latches_iff {i : Instr} {s u : State} (hs : s.fault = none) (h : exec i s = .next u) :
    u.fault ≠ none ↔ i = .ret ∧ s.stack = [] := by
  by_cases hi : i = .ret
  · subst hi
    cases hstack : s.stack with
    | nil => cases (exec_ret_of_empty hstack).symm.trans h; simp
    | cons top rest => cases (exec_ret_of_cons hstack).symm.trans h; simp [hs]
  · obtain ⟨u', hu', hkeep⟩ := exec_keeps_fault hi s
    cases hu'.symm.trans h
    simp [hkeep, hs, hi]

/-- No instruction writes memory, the list itself (R35). -/
theorem exec_mem {i : Instr} {s u : State} (h : exec i s = .next u) : u.mem = s.mem := by
  cases i with
  | ret =>
    cases hstack : s.stack with
    | nil => cases (exec_ret_of_empty hstack).symm.trans h; rfl
    | cons top rest => cases (exec_ret_of_cons hstack).symm.trans h; rfl
  | addVxNn => cases h; exact State.writeResult_mem _ _ _
  | addVxVy | sub | subn | shr | shl => cases h; exact State.writeResultThenFlag_mem _ _ _ _
  | _ => cases h; rfl

/-- A part the matrix does not mark for an instruction is as before it. -/
theorem exec_same {i : Instr} {s u : State} (h : exec i s = .next u) {p : Part} (hp : p ∉ writesOf i) : p.same s u :=
  accessMatrixWrites i s u h p hp

/-- No instruction writes a timer (R151). -/
theorem exec_timers {i : Instr} {s u : State} (h : exec i s = .next u) : u.dt = s.dt ∧ u.st = s.st :=
  ⟨exec_same h (p := .delayTimer) (by cases i <;> simp [writesOf]),
    exec_same h (p := .soundTimer) (by cases i <;> simp [writesOf])⟩

/-! ## The end of the cycle -/

@[simp] theorem State.finishCycle_pc (s : State) : s.finishCycle.pc = s.pc := by rw [State.finishCycle_eq]
@[simp] theorem State.finishCycle_i (s : State) : s.finishCycle.i = s.i := by rw [State.finishCycle_eq]
@[simp] theorem State.finishCycle_stack (s : State) : s.finishCycle.stack = s.stack := by rw [State.finishCycle_eq]
@[simp] theorem State.finishCycle_redraw (s : State) : s.finishCycle.redraw = s.redraw := by rw [State.finishCycle_eq]
@[simp] theorem State.finishCycle_fault (s : State) : s.finishCycle.fault = s.fault := by rw [State.finishCycle_eq]
@[simp] theorem State.finishCycle_mem (s : State) : s.finishCycle.mem = s.mem := by rw [State.finishCycle_eq]

theorem State.finishCycle_eq_ite (s : State) : s.finishCycle = if s.fault = none then s.timerStep else s := by
  cases h : s.fault <;> simp [State.finishCycle, State.halted, h]

/-! ## The cycle -/

theorem State.halted_of_fault {s : State} {f : Fault} (h : s.fault = some f) : s.halted = true := by
  rw [State.halted, h, Option.isSome_some]

theorem State.not_halted_of_fault {s : State} (h : s.fault = none) : s.halted = false := by
  rw [State.halted, h, Option.isSome_none]

/-- A core without fault runs the instruction it fetches on the advanced state, and then the end of the cycle (R70). -/
theorem step_of_no_fault {s : State} (hs : s.fault = none) :
    ∃ u, exec (decode s.fetchWord) s.advancePc = .next u ∧ step s = .next u.finishCycle := by
  obtain ⟨u, hu⟩ := exec_answers (decode s.fetchWord) s.advancePc
  exact ⟨u, hu, by rw [step_of_not_halted (State.not_halted_of_fault hs), runInstr, hu]⟩

/-- The same, when the next state is given. -/
theorem step_next_of_no_fault {s t : State} (hs : s.fault = none) (h : step s = .next t) :
    ∃ u, exec (decode s.fetchWord) s.advancePc = .next u ∧ t = u.finishCycle := by
  obtain ⟨u, hu, hstep⟩ := step_of_no_fault hs
  exact ⟨u, hu, Host.Outcome.next.inj (h.symm.trans hstep)⟩

/-- Settles O9: the advanced state is the one the instruction runs on, and the end of the cycle tests the latch. -/
theorem stepRunsDecodedInstruction : Obligations.StepRunsDecodedInstruction := by
  rintro s i hs rfl -
  obtain ⟨t, hexec, hstep⟩ := step_of_no_fault hs
  exact ⟨t, hexec, hstep.trans (congrArg _ t.finishCycle_eq_ite)⟩

/-- Settles O11: a halted core answers itself, and another completes the instruction it fetches. -/
theorem everyStepAnswersNext : Obligations.EveryStepAnswersNext := by
  intro s
  cases hs : s.fault with
  | none =>
    obtain ⟨u, _, hstep⟩ := step_of_no_fault hs
    exact ⟨_, hstep⟩
  | some f => exact ⟨s, step_of_halted (State.halted_of_fault hs)⟩

/-- Settles O10: the halted step is the identity, and the result of a cycle reads the latch before it first. -/
theorem haltedCycleChangesNothing : Obligations.HaltedCycleChangesNothing := by
  intro font s f hs
  have hstep : step s = .next s := step_of_halted (State.halted_of_fault hs)
  refine ⟨hstep, ?_⟩
  rw [HostOp.apply_executeCycle_of_step font hstep, cycleResult, hs]

/-- Settles O55: the answer is the result of the step's cycle. -/
theorem hostExecuteCycleIsStep : Obligations.HostExecuteCycleIsStep := by
  intro font s
  obtain ⟨t, hstep⟩ := everyStepAnswersNext s
  exact ⟨t, hstep, HostOp.apply_executeCycle_of_step font hstep⟩

/-! ## The fault -/

/-- The cycle of a `RET` that meets an empty stack (R141, R74): `pc` advanced, the address latched, no timer step. -/
theorem step_of_underflow {s : State} (hs : s.fault = none) (hret : decode s.fetchWord = .ret) (hstack : s.stack = []) :
    step s = .next { s with pc := s.pc + 2, fault := some (.stackUnderflow s.pc) } := by
  have haddr : s.advancePc.pc - 2 = s.pc := BitVec.add_sub_cancel s.pc 2
  rw [step_of_not_halted (State.not_halted_of_fault hs), runInstr, hret,
    exec_ret_of_empty (s := s.advancePc) hstack, haddr]
  rfl

/-- Settles O18: the cycle latches the address, and the latch after it is what the host is answered. -/
theorem emptyStackRetTakesFault : Obligations.EmptyStackRetTakesFault := by
  intro font s hs hret hstack
  have hstep := step_of_underflow hs hret hstack
  refine ⟨_, hstep, rfl, ?_⟩
  rw [HostOp.apply_executeCycle_of_step font hstep, cycleResult, hs]

/-- Settles O19: the end of the cycle leaves the latch, which only that `RET` writes. -/
theorem onlyEmptyStackRetFaults : Obligations.OnlyEmptyStackRetFaults := by
  intro s t hs h
  obtain ⟨u, hexec, rfl⟩ := step_next_of_no_fault hs h
  rw [State.finishCycle_fault]
  exact exec_latches_iff (s := s.advancePc) hs hexec

/-- A cycle that does not fault ends with the timer step (R150). -/
theorem step_of_no_underflow {s : State} (hs : s.fault = none) (hret : ¬(decode s.fetchWord = .ret ∧ s.stack = [])) :
    ∃ u, exec (decode s.fetchWord) s.advancePc = .next u ∧ u.fault = none ∧ step s = .next u.timerStep := by
  obtain ⟨u, hexec⟩ := exec_answers (decode s.fetchWord) s.advancePc
  have hu : u.fault = none := not_not.1 fun h => hret ((exec_latches_iff (s := s.advancePc) hs hexec).1 h)
  exact ⟨u, hexec, hu, step_of_exec hs hexec hu⟩

/-! ## Control -/

theorem addrConst_toNat (nnn : BitVec 12) : (addrConst nnn).toNat = nnn.toNat := by
  rw [addrConst, BitVec.toNat_setWidth]
  have := nnn.isLt
  omega

theorem addrConst_eq_ofNat (nnn : BitVec 12) : addrConst nnn = BitVec.ofNat 16 nnn.toNat := by
  rw [← addrConst_toNat, BitVec.ofNat_toNat, BitVec.setWidth_eq]

/-- The advance wraps at 65536 (R12). -/
theorem State.advancePc_pc_eq_ofNat (s : State) : s.advancePc.pc = BitVec.ofNat 16 ((s.pc.toNat + 2) % 65536) := by
  apply BitVec.eq_of_toNat_eq
  simp [BitVec.toNat_add]

/-- Settles O12: the three transfers set `pc`; every other instruction leaves the advanced value, by its frame. -/
theorem pcAfterEachCycle : Obligations.PcAfterEachCycle := by
  intro s hs
  obtain ⟨u, hexec, hstep⟩ := step_of_no_fault hs
  refine ⟨_, hstep, ?_⟩
  rw [State.finishCycle_pc, ← State.advancePc_pc_eq_ofNat]
  cases hi : decode s.fetchWord <;> rw [hi] at hexec
  case jp nnn => cases hexec; exact addrConst_eq_ofNat nnn
  case call nnn => cases hexec; exact addrConst_eq_ofNat nnn
  case ret =>
    cases hstack : s.stack with
    | nil => cases (exec_ret_of_empty (s := s.advancePc) hstack).symm.trans hexec; rfl
    | cons top rest => cases (exec_ret_of_cons (s := s.advancePc) hstack).symm.trans hexec; rfl
  all_goals exact exec_same hexec (p := .pc) (by simp [writesOf])

/-- Settles O13: the `CALL` leaves the advanced `pc` on top of the old stack, and the `RET` pops it. -/
theorem callThenRetComesBack : Obligations.CallThenRetComesBack := by
  intro s t u nnn hs hcall hst hret htu
  obtain ⟨s', hexec, rfl⟩ := step_next_of_no_fault hs hst
  rw [hcall, exec_call] at hexec
  cases hexec
  obtain ⟨t', hexec, rfl⟩ := step_next_of_no_fault (by simpa using hs) htu
  rw [hret, exec_ret_of_cons (top := s.pc + 2) (rest := s.stack) (by simp)] at hexec
  cases hexec
  simp [hs]

/-- Settles O17: the jump puts the same `pc` back and the cycle writes no memory, so the same word is fetched again. -/
theorem finishedProgramSpins : Obligations.FinishedProgramSpins := by
  intro s nnn hs hjp hself
  have hpc : addrConst nnn = s.pc := BitVec.eq_of_toNat_eq ((addrConst_toNat nnn).trans hself.symm)
  have hstep : step s = .next s.timerStep := by
    refine step_of_exec hs ?_ hs
    rw [hjp, exec_jp, hpc]
    rfl
  refine ⟨_, hstep, fun p hp => ?_, rfl⟩
  cases p <;> simp_all [Part.same]

end Sys2Proof.Machine
end

section
/-! What every cycle and every host operation keeps: the timers' course, the latch, memory, the redraw flag and the
invariant (spec/10_state.md sections 5 to 9, spec/60_exceptions.md, spec/80_host_interface.md). -/

namespace Sys2Proof.Machine

/-! ## The timers -/

/-- Settles O14: no instruction writes a timer, and the cycle ends with the timer step. -/
theorem timersStepOncePerCycle : Obligations.TimersStepOncePerCycle := by
  intro s hs hret
  obtain ⟨u, hexec, _, hstep⟩ := step_of_no_underflow hs hret
  obtain ⟨hdt, hst⟩ := exec_timers hexec
  refine ⟨_, hstep, ?_, ?_⟩
  · rw [State.timerStep_dt, countDown_toNat, hdt, State.advancePc_dt]
  · rw [State.timerStep_st, countDown_toNat, hst, State.advancePc_st]

/-- A run without fault of one cycle more is one step and then the run (spec/70_reset_and_hazards.md R166). -/
theorem RunsWithoutFault.succ {n : Nat} {s t : State} (h : RunsWithoutFault (n + 1) s t) :
    ∃ s', step s = .next s' ∧ RunsWithoutFault n s' t := by
  obtain ⟨hrun, ht⟩ := h
  obtain ⟨s', hstep⟩ := everyStepAnswersNext s
  simp only [Host.Core.run, hstep] at hrun
  exact ⟨s', hstep, hrun, ht⟩

/-- A latched fault stays latched (R142). -/
theorem no_fault_before_step {s t : State} (h : step s = .next t) (ht : t.fault = none) : s.fault = none := by
  cases hs : s.fault with
  | none => rfl
  | some f =>
    cases (step_of_halted (State.halted_of_fault hs)).symm.trans h
    exact absurd hs (by simp [ht])

/-- A run that ends without fault has none at its start. -/
theorem RunsWithoutFault.no_fault {n : Nat} {s t : State} (h : RunsWithoutFault n s t) : s.fault = none := by
  induction n generalizing s with
  | zero =>
    obtain ⟨hrun, ht⟩ := h
    cases hrun
    exact ht
  | succ n ih =>
    obtain ⟨s', hstep, hrest⟩ := h.succ
    exact no_fault_before_step hstep (ih hrest)

/-- Settles O15, by induction on the number of cycles: none of them faults, so each steps both timers. -/
theorem timersOverUnfaultedRun : Obligations.TimersOverUnfaultedRun := by
  intro n
  induction n with
  | zero =>
    rintro s t ⟨hrun, _⟩
    cases hrun
    exact ⟨rfl, rfl⟩
  | succ n ih =>
    intro s t hrun
    have hs : s.fault = none := hrun.no_fault
    obtain ⟨s', hstep, hrest⟩ := hrun.succ
    have hret : ¬(decode s.fetchWord = .ret ∧ s.stack = []) := fun hret =>
      (onlyEmptyStackRetFaults s s' hs hstep).2 hret hrest.no_fault
    obtain ⟨s'', hstep', hdt, hst⟩ := timersStepOncePerCycle s hs hret
    cases hstep'.symm.trans hstep
    obtain ⟨hdt', hst'⟩ := ih s' t hrest
    omega

/-- The state with the timers at other values. -/
def State.withTimers (s : State) (dt st : Byte) : State := { s with dt := dt, st := st }

theorem State.writeResult_withTimers (s : State) (dt st : Byte) (x : Reg) (result : Option Byte) :
    (s.withTimers dt st).writeResult x result = (s.writeResult x result).withTimers dt st := by
  cases result <;> rfl

theorem State.writeResultThenFlag_withTimers (s : State) (dt st : Byte) (x : Reg) (result : Option Byte) (flag : Bool) :
    (s.withTimers dt st).writeResultThenFlag x result flag =
      (s.writeResultThenFlag x result flag).withTimers dt st := by
  cases result <;> rfl

theorem State.memWriteList_withTimers (s : State) (dt st : Byte) (addr : Nat) (bytes : List Byte) :
    (s.withTimers dt st).memWriteList addr bytes = (s.memWriteList addr bytes).withTimers dt st := by
  induction bytes generalizing s addr with
  | nil => rfl
  | cons b rest ih => exact ih (s.memWrite addr b) (addr + 1)

theorem State.load_withTimers (s : State) (dt st : Byte) (bytes : List Byte) :
    (s.withTimers dt st).load bytes = (s.load bytes).withTimers dt st := by
  unfold State.load
  split
  · rfl
  · exact s.memWriteList_withTimers dt st _ bytes

/-- An instruction carries the timers along unseen (R151). -/
theorem exec_withTimers {i : Instr} {s u : State} (h : exec i s = .next u) (dt st : Byte) :
    exec i (s.withTimers dt st) = .next (u.withTimers dt st) := by
  cases i with
  | ret =>
    cases hstack : s.stack with
    | nil =>
      cases (exec_ret_of_empty hstack).symm.trans h
      exact exec_ret_of_empty (s := s.withTimers dt st) hstack
    | cons top rest =>
      cases (exec_ret_of_cons hstack).symm.trans h
      exact exec_ret_of_cons (s := s.withTimers dt st) hstack
  | addVxNn => cases h; exact congrArg _ (s.writeResult_withTimers dt st _ _)
  | addVxVy | sub | subn | shr | shl => cases h; exact congrArg _ (s.writeResultThenFlag_withTimers dt st _ _ _)
  | _ => cases h; rfl

theorem State.finishCycle_withTimers (u : State) (dt st : Byte) :
    ∃ dt' st', (u.withTimers dt st).finishCycle = u.finishCycle.withTimers dt' st' := by
  refine ⟨(u.withTimers dt st).finishCycle.dt, (u.withTimers dt st).finishCycle.st, ?_⟩
  rw [u.finishCycle_eq]
  exact (u.withTimers dt st).finishCycle_eq

/-- A cycle does not see the timers. -/
theorem step_withTimers {s t : State} (h : step s = .next t) (dt st : Byte) :
    ∃ dt' st', step (s.withTimers dt st) = .next (t.withTimers dt' st') := by
  rcases step_next h with ⟨hhalt, rfl⟩ | ⟨hrun, u, hexec, rfl⟩
  · exact ⟨dt, st, step_of_halted hhalt⟩
  · obtain ⟨dt', st', hend⟩ := u.finishCycle_withTimers dt st
    have hexec' : exec (decode (s.withTimers dt st).fetchWord) (s.withTimers dt st).advancePc =
      .next (u.withTimers dt st) := exec_withTimers hexec dt st
    refine ⟨dt', st', ?_⟩
    rw [step_of_not_halted (s := s.withTimers dt st) hrun, runInstr, hexec', ← hend]

/-- Settles O16: a cycle carries the timers along unseen, and so does every other host operation. -/
theorem timersObservedByNobody : Obligations.TimersObservedByNobody := by
  intro s dt st
  obtain ⟨t, hstep⟩ := everyStepAnswersNext s
  obtain ⟨dt', st', hstep'⟩ := step_withTimers hstep dt st
  refine ⟨⟨t, dt', st', hstep, hstep'⟩, fun font op => ?_⟩
  cases op with
  | reset => exact ⟨State.resetWith font, .none, _, _, rfl, rfl⟩
  | load bytes =>
    exact ⟨s.load bytes, .load (loadResult bytes), dt, st, rfl,
      congrArg (fun u => Host.Outcome.next (u, HostReply.load (loadResult bytes))) (s.load_withTimers dt st bytes)⟩
  | executeCycle =>
    exact ⟨t, .cycle (cycleResult s t), dt', st', HostOp.apply_executeCycle_of_step font hstep,
      HostOp.apply_executeCycle_of_step font hstep'⟩
  | framebufferSnapshot => exact ⟨s, .grid (Framebuffer.flat s.fb), dt, st, rfl, rfl⟩
  | needsRedraw => exact ⟨s, .flag s.redraw, dt, st, rfl, rfl⟩
  | consumeRedraw => exact ⟨s.consumeRedraw, .flag s.redraw, dt, st, rfl, rfl⟩

/-! ## The latch and the redraw flag -/

/-- `load` leaves the latch alone, on a halted core too (spec/80_host_interface.md R181). -/
theorem State.load_fault (s : State) (bytes : List Byte) : (s.load bytes).fault = s.fault := by
  rcases s.load_cases bytes with ⟨_, e⟩ | ⟨_, e⟩ <;> rw [e]
  rw [State.memWriteList_eq]

/-- Settles O21: a halted cycle keeps the whole state, `load` and `consume_redraw` the latch, and `reset` makes it
anew. -/
theorem onlyResetClearsFault : Obligations.OnlyResetClearsFault := by
  intro font op s f hs
  cases op with
  | reset =>
    refine ⟨_, _, rfl, fun h => absurd rfl h, fun _ => ⟨rfl, ?_⟩⟩
    rw [State.resetWith_eq]
    rfl
  | load bytes => exact ⟨_, _, rfl, fun _ => (s.load_fault bytes).trans hs, fun h => nomatch h⟩
  | executeCycle =>
    obtain ⟨_, happly⟩ := haltedCycleChangesNothing font s f hs
    exact ⟨s, _, happly, fun _ => hs, fun h => nomatch h⟩
  | framebufferSnapshot | needsRedraw | consumeRedraw => exact ⟨_, _, rfl, fun _ => hs, fun h => nomatch h⟩

/-- Settles O23: `DRW` sets the flag, and every other instruction leaves it, by its frame. -/
theorem onlyDrawSetsRedraw : Obligations.OnlyDrawSetsRedraw := by
  intro s hs
  obtain ⟨u, hexec, hstep⟩ := step_of_no_fault hs
  refine ⟨_, hstep, ?_⟩
  rw [State.finishCycle_redraw]
  by_cases hdrw : ∃ x y n, decode s.fetchWord = .drw x y n
  · obtain ⟨x, y, n, hi⟩ := hdrw
    rw [hi, exec_drw] at hexec
    cases hexec
    simp [hi]
  · have hframe : Part.redraw ∉ writesOf (decode s.fetchWord) := by
      cases hi : decode s.fetchWord <;> simp_all [writesOf]
    have hkeep : u.redraw = s.redraw := exec_same hexec hframe
    simp [hkeep, hdrw]

/-! ## Memory -/

/-- No cycle writes memory, the list itself (R35). -/
theorem step_mem {s t : State} (h : step s = .next t) : t.mem = s.mem := by
  rcases step_next h with ⟨_, rfl⟩ | ⟨_, u, hexec, rfl⟩
  · rfl
  · rw [State.finishCycle_mem, exec_mem hexec, State.advancePc_mem]

/-- Settles O22: the list of bytes is the same, so every address reads the same. -/
theorem cyclesLeaveMemory : Obligations.CyclesLeaveMemory := by
  intro s t h addr
  rw [State.memRead, State.memRead, step_mem h]

/-- Everything memory holds after a reset with a FONT (spec/20_memory.md R36, R37). -/
theorem State.memRead_resetWith (font : Config.Font) {a : Nat} (ha : a < Config.memSize) :
    (State.resetWith font).memRead a = resetByteOf font a := by
  have hreset : 80 ≤ a → State.reset.memRead a = 0 := fun h => by
    rw [State.memRead, reduceAddr_of_lt ha]
    exact dif_neg (Nat.not_lt.2 h)
  rw [State.resetWith, State.memRead_memWriteList reset_memory_wf 0 _ (by simp) ha]
  by_cases h : a < 80
  · simp [resetByteOf, h]
  · simp [resetByteOf, h, hreset (Nat.not_lt.1 h)]

/-- A host operation keeps memory canonical and the bytes below the program region at their reset contents (R38). -/
theorem HostOp.apply_keeps_low_memory {font : Config.Font} {op : HostOp} {s t : State} {r : HostReply}
    (hwf : Memory.wf s.mem) (hlow : ∀ a, a < 0x200 → s.memRead a = resetByteOf font a)
    (h : op.apply font s = .next (t, r)) :
    Memory.wf t.mem ∧ ∀ a, a < 0x200 → t.memRead a = resetByteOf font a := by
  rcases HostOp.apply_next h with ⟨_, rfl⟩ | ⟨bytes, _, rfl⟩ | ⟨_, hstep⟩ | ⟨_, rfl⟩ | ⟨_, rfl⟩
  · exact ⟨State.resetWith_wf font, fun a ha => State.memRead_resetWith font (Nat.lt_trans ha (by decide))⟩
  · exact ⟨State.load_wf hwf bytes, fun a ha => (State.memRead_load_low hwf bytes ha).trans (hlow a ha)⟩
  · exact ⟨(step_mem hstep).symm ▸ hwf, fun a ha => (cyclesLeaveMemory s t hstep a).trans (hlow a ha)⟩
  · exact ⟨hwf, hlow⟩
  · exact ⟨hwf, hlow⟩

/-- Settles O26, by induction on the operations: each keeps memory canonical and the low bytes as they are. -/
theorem lowMemoryNeverChanges : Obligations.LowMemoryNeverChanges := by
  intro font ops
  induction ops with
  | nil =>
    intro s t rs _ hlow hrun
    cases hrun
    exact hlow
  | cons op ops ih =>
    intro s t rs hwf hlow hrun
    rw [runHost] at hrun
    split at hrun
    · cases hrun
    · cases hrun
    · next u reply happly =>
      obtain ⟨huwf, hulow⟩ := HostOp.apply_keeps_low_memory hwf hlow happly
      split at hrun
      · next hrest =>
        cases hrun
        exact ih u _ _ huwf hulow hrest
      · cases hrun
      · cases hrun

/-! ## The invariant -/

/-- An instruction leaves `I` or loads it with a 12-bit constant (R13). -/
theorem exec_index {i : Instr} {s u : State} (h : exec i s = .next u) : u.i = s.i ∨ ∃ nnn, u.i = addrConst nnn := by
  cases i with
  | ldINnn nnn => cases h; exact .inr ⟨nnn, rfl⟩
  | _ => exact .inl (exec_same h (p := .index) (by simp [writesOf]))

/-- Settles O24: a constant fits in 12 bits, memory is not written, and a cycle that latches a fault is a `RET` with
an empty stack, whose word still stands in memory. -/
theorem invariantKeptByEveryStep : Obligations.InvariantKeptByEveryStep := by
  intro s t hinv h
  cases hs : s.fault with
  | some f =>
    cases (step_of_halted (State.halted_of_fault hs)).symm.trans h
    exact hinv
  | none =>
    obtain ⟨u, hexec, rfl⟩ := step_next_of_no_fault hs h
    refine ⟨?_, ?_, fun a ha => ?_⟩
    · rw [State.finishCycle_i]
      rcases exec_index hexec with hi | ⟨nnn, hi⟩ <;> rw [hi]
      · exact hinv.index_in_range
      · rw [addrConst_toNat]
        exact nnn.isLt
    · rw [step_mem h]
      exact hinv.memory_canonical
    · obtain ⟨hret, hstack⟩ := (onlyEmptyStackRetFaults s _ hs h).1 (by rw [ha]; exact Option.some_ne_none _)
      rw [step_of_underflow hs hret hstack] at h
      have ht := Host.Outcome.next.inj h
      rw [← ht] at ha ⊢
      cases ha
      exact ⟨hstack, rfl, hret⟩

/-- Settles O25: `I` is 0, memory lists nothing, and no fault is latched. -/
theorem invariantAtReset : Obligations.InvariantAtReset where
  index_in_range := by decide
  memory_canonical := reset_memory_wf
  faulted_at_ret := fun _ h => nomatch h

end Sys2Proof.Machine
end

section
/-! The transfers, the copies and the flag writers, one by one (spec/41_system_flow.md, 42_immediate.md, 43_alu.md): the
equation of each instruction says its writes, and the frame of those writes is what it changes. -/

namespace Sys2Proof.Machine

/-! ## System class and control transfer -/

/-- Settles O30: the cleared framebuffer is the whole write. -/
theorem clsTurnsEveryPixelOff : Obligations.ClsTurnsEveryPixelOff := fun s =>
  ⟨_, exec_cls s, Framebuffer.pixel_clear, s.changesOnly_writeFb _⟩

/-- Settles O31: the top leaves the stack and goes to `pc`. -/
theorem retPopsIntoPc : Obligations.RetPopsIntoPc := fun s top _ hstack =>
  ⟨_, exec_ret_of_cons hstack, rfl, congrArg List.tail hstack,
    (s.changesOnly_dropTop.append (State.changesOnly_writePc _ top)).mono (by simp)⟩

/-- Settles O32: the latch is the whole write. -/
theorem retOnEmptyStackLatches : Obligations.RetOnEmptyStackLatches := fun s hstack =>
  ⟨_, exec_ret_of_empty hstack, rfl, s.changesOnly_raiseStackUnderflow _⟩

/-- Settles O33: the zero-extended constant goes to `pc`. -/
theorem jpSetsPc : Obligations.JpSetsPc := fun s nnn =>
  ⟨_, exec_jp nnn s, addrConst_toNat nnn, s.changesOnly_writePc _⟩

/-- Settles O34: the old `pc` is pushed whatever the stack holds, and the zero-extended constant goes to `pc`. -/
theorem callPushesAndJumps : Obligations.CallPushesAndJumps := fun s nnn =>
  ⟨_, exec_call nnn s, rfl, addrConst_toNat nnn,
    ((s.changesOnly_push s.pc).append (State.changesOnly_writePc _ _)).mono (by simp)⟩

/-- Settles O37: the zero-extended constant goes to `I`. -/
theorem ldISetsIndex : Obligations.LdISetsIndex := fun s nnn =>
  ⟨_, exec_ldINnn nnn s, addrConst_toNat nnn, s.changesOnly_writeI _⟩

/-! ## The copy and the bitwise instructions -/

/-- Settles O38: one write to `V[x]`, and no flag. -/
theorem ldVxVyCopies : Obligations.LdVxVyCopies := fun x y s =>
  ⟨_, exec_ldVxVy x y s, s.readV_writeV_self x _, s.changesOnly_writeV x _⟩

/-- Settles O39: each is one write to `V[x]`, and no flag. -/
theorem bitwiseResults : Obligations.BitwiseResults := fun x y s =>
  ⟨⟨_, exec_or x y s, s.readV_writeV_self x _, s.changesOnly_writeV x _⟩,
    ⟨_, exec_and x y s, s.readV_writeV_self x _, s.changesOnly_writeV x _⟩,
    ⟨_, exec_xor x y s, s.readV_writeV_self x _, s.changesOnly_writeV x _⟩⟩

/-! ## The subtractions -/

/-- The flag of a subtraction: 0 on borrow (R105, R106). -/
theorem flagByte_not_borrows (minuend subtrahend : Byte) :
    flagByte (!borrows minuend subtrahend) = if minuend.toNat < subtrahend.toNat then 0 else 1 := by
  by_cases h : minuend.toNat < subtrahend.toNat <;> simp [flagByte, borrows, h]

/-- What `V[x]` holds after a subtraction: its old value on borrow, else the exact difference (R105, R106). -/
theorem subResult_getD_toNat (minuend subtrahend old : Byte) :
    ((subResult minuend subtrahend).getD old).toNat =
      if minuend.toNat < subtrahend.toNat then old.toNat else minuend.toNat - subtrahend.toNat := by
  unfold subResult
  by_cases h : minuend.toNat < subtrahend.toNat
  · rw [if_neg (Nat.not_le.2 h), if_pos h, Option.getD_none]
  · rw [if_pos (Nat.not_lt.1 h), if_neg h, Option.getD_some, BitVec.toNat_ofNat, Nat.mod_eq_of_lt]
    exact Nat.lt_of_le_of_lt (Nat.sub_le _ _) minuend.isLt

/-- Settles O41: one write of `vx - vy`, where there is no borrow, and then of the flag. -/
theorem subResultAndFlag : Obligations.SubResultAndFlag := by
  intro x y s
  refine ⟨_, exec_sub x y s, ?_, fun hx => ?_, s.changesOnly_writeResultThenFlag x _ _⟩
  · rw [State.readV_writeResultThenFlag_vf, flagByte_not_borrows]
  · rw [State.readV_writeResultThenFlag_self s hx, subResult_getD_toNat]

/-- Settles O42: one write of `vy - vx` to `V[x]`, where there is no borrow, and then of the flag. -/
theorem subnResultAndFlag : Obligations.SubnResultAndFlag := by
  intro x y s
  refine ⟨_, exec_subn x y s, ?_, fun hx => ?_, s.changesOnly_writeResultThenFlag x _ _⟩
  · rw [State.readV_writeResultThenFlag_vf, flagByte_not_borrows]
  · rw [State.readV_writeResultThenFlag_self s hx, subResult_getD_toNat]

/-! ## The shifts -/

/-- The flag of both shifts is the source's bit 0 (R107, R108). -/
theorem flagByte_shiftFlag_toNat (vy : Byte) : (flagByte (shiftFlag vy)).toNat = vy.toNat % 2 := by
  have hbit : shiftFlag vy = decide (vy.toNat % 2 = 1) := by
    rw [shiftFlag, BitVec.getLsbD, Nat.testBit_zero]
  rcases Nat.mod_two_eq_zero_or_one vy.toNat with h | h <;> simp [flagByte, hbit, h]

theorem shrResult_toNat (vy : Byte) : (shrResult vy).toNat = vy.toNat / 2 := by
  have := vy.isLt
  rw [shrResult, BitVec.toNat_ofNat]
  omega

theorem shlResult_toNat (vy : Byte) : (shlResult vy).toNat = 2 * vy.toNat % 256 := by
  rw [shlResult, BitVec.toNat_ofNat, Nat.mod_mod]

/-- Settles O43: one write of half the source, and then of its bit 0. -/
theorem shrResultAndFlag : Obligations.ShrResultAndFlag := by
  intro x y s
  refine ⟨_, exec_shr x y s, ?_, fun hx => ?_, s.changesOnly_writeResultThenFlag x _ _⟩
  · rw [State.readV_writeResultThenFlag_vf, flagByte_shiftFlag_toNat]
  · rw [State.readV_writeResultThenFlag_self s hx, Option.getD_some, shrResult_toNat]

/-- Settles O44: one write of twice the source, and then of its bit 0. -/
theorem shlResultAndFlag : Obligations.ShlResultAndFlag := by
  intro x y s
  refine ⟨_, exec_shl x y s, ?_, fun hx => ?_, s.changesOnly_writeResultThenFlag x _ _⟩
  · rw [State.readV_writeResultThenFlag_vf, flagByte_shiftFlag_toNat]
  · rw [State.readV_writeResultThenFlag_self s hx, Option.getD_some, shlResult_toNat]

/-! ## The flag -/

/-- Settles O29: each of the six writes VF last, as the byte of a flag. -/
theorem flagWritersLeaveZeroOrOne : Obligations.FlagWritersLeaveZeroOrOne := by
  have hflag : ∀ b, flagByte b = 0x00 ∨ flagByte b = 0x01 := by decide
  have hresult : ∀ (s : State) x result b, (s.writeResultThenFlag x result b).readV Reg.vf = 0x00 ∨
      (s.writeResultThenFlag x result b).readV Reg.vf = 0x01 := fun s x result b => by
    rw [State.readV_writeResultThenFlag_vf]
    exact hflag b
  rintro i s ⟨x, y, rfl | rfl | rfl | rfl | rfl | ⟨n, rfl⟩⟩
  · exact ⟨_, exec_addVxVy x y s, hresult ..⟩
  · exact ⟨_, exec_sub x y s, hresult ..⟩
  · exact ⟨_, exec_subn x y s, hresult ..⟩
  · exact ⟨_, exec_shr x y s, hresult ..⟩
  · exact ⟨_, exec_shl x y s, hresult ..⟩
  · refine ⟨_, exec_drw x y n s, ?_⟩
    rw [State.showCanvas_readV_vf]
    exact hflag _

end Sys2Proof.Machine
end

section
/-! The host's side (spec/70_reset_and_hazards.md, spec/80_host_interface.md): reset, `load`, the redraw flag and the
snapshot. -/

namespace Sys2Proof.Machine

/-! ## Reset -/

/-- Settles O49: reset with the default FONT is the plain reset, whose memory reads the reset contents. -/
theorem resetStateAsListed : Obligations.ResetStateAsListed := by
  have hread : ∀ a, a < 4096 → State.reset.memRead a = resetByteOf Config.defaultFont a := fun a ha => by
    rw [← State.resetWith_defaultFont, State.memRead_resetWith _ ha]
  refine ⟨fun s => ?_, fun r => ?_, rfl, rfl, rfl, rfl, rfl, Framebuffer.pixel_clear, rfl, rfl, fun a ha => ?_,
    fun a ha ha' => ?_⟩
  · rw [HostOp.apply, State.resetWith_defaultFont]
  · exact Vector.getElem_replicate _
  · rw [hread a (Nat.lt_trans ha (by decide)), resetByteOf, dif_pos ha]
    exact (List.getD_eq_getElem _ _ ha).symm
  · rw [hread a ha', resetByteOf, dif_neg (Nat.not_lt.2 ha)]

/-- Consecutive writes change memory only. -/
theorem State.changesOnly_memWriteList (s : State) (addr : Nat) (bytes : List Byte) :
    ChangesOnly [.memory] s (s.memWriteList addr bytes) := by
  intro p hp
  rw [State.memWriteList_eq]
  cases p with
  | memory => exact absurd (by simp) hp
  | screen => exact fun _ _ => rfl
  | _ => rfl

/-- Settles O50: reset writes the FONT over the plain reset's memory. -/
theorem resetWithAnyFont : Obligations.ResetWithAnyFont := by
  intro font s
  refine ⟨State.resetWith font, rfl, State.resetWith_wf font, State.changesOnly_memWriteList _ _ _, fun a ha => ?_,
    fun a ha ha' => ?_⟩
  · rw [State.memRead_resetWith font (Nat.lt_trans ha (by decide)), resetByteOf, dif_pos ha]
  · rw [State.memRead_resetWith font ha', resetByteOf, dif_neg (Nat.not_lt.2 ha)]

/-! ## Load -/

/-- R181's test: a load fits when its bytes end at or below the top of memory. -/
theorem loadTooLong_iff (k : Nat) : loadTooLong k = true ↔ 3584 < k := by
  simp only [loadTooLong, Config.memSize, Config.progBase, decide_eq_true_eq]
  omega

/-- Settles O51: a load that fits is the consecutive writes from 0x200 up. -/
theorem loadCopiesBytes : Obligations.LoadCopiesBytes := by
  intro font s bytes hwf hlen
  have hfits : ¬loadTooLong bytes.length = true := fun h => Nat.not_lt.2 hlen ((loadTooLong_iff _).1 h)
  have hload : s.load bytes = s.memWriteList 0x200 bytes := if_neg hfits
  have hread : ∀ a, a < 4096 → (s.memWriteList 0x200 bytes).memRead a =
      if 0x200 ≤ a ∧ a < 0x200 + bytes.length then bytes.getD (a - 0x200) 0 else s.memRead a := fun a ha =>
    State.memRead_memWriteList hwf 0x200 bytes (by simp only [Config.memSize]; omega) ha
  refine ⟨s.memWriteList 0x200 bytes, ?_, fun j hj => ?_, fun a ha hout => ?_, s.changesOnly_memWriteList _ _,
    State.memWriteList_wf hwf _ _⟩
  · rw [HostOp.apply, hload, loadResult, if_neg hfits]
  · rw [hread _ (by omega), if_pos (by omega), Nat.add_sub_cancel_left]
  · rw [hread a ha, if_neg (by omega)]

/-- Settles O52: a load that does not fit is refused before any write. -/
theorem loadTooLargeChangesNothing : Obligations.LoadTooLargeChangesNothing := by
  intro font s bytes hlen
  have hlong : loadTooLong bytes.length = true := (loadTooLong_iff _).2 hlen
  rw [HostOp.apply, State.load, loadResult, if_pos hlong, if_pos hlong]

/-! ## The redraw flag and the snapshot -/

/-- Settles O53: `consume_redraw` is one write of the flag. -/
theorem redrawFlagProtocol : Obligations.RedrawFlagProtocol := fun _ s =>
  ⟨rfl, _, rfl, rfl, s.changesOnly_writeRedraw false⟩

/-- The snapshot is the library's flattening of the rows. -/
theorem Framebuffer.flat_eq_flatten (fb : Framebuffer) : Framebuffer.flat fb = (Vector.flatten fb).toList := by
  simp only [Framebuffer.flat, Vector.flatten, Vector.toList, Array.toList_flatten, Array.toList_map, List.map_map]
  rfl

/-- Settles O54: element `py * 64 + px` of the flattened rows is element `px` of row `py`. -/
theorem snapshotIsRowMajor : Obligations.SnapshotIsRowMajor := by
  intro font s
  refine ⟨_, rfl, ?_, fun px py => ?_⟩
  · rw [Framebuffer.flat_eq_flatten, Vector.length_toList]
  · have hpos : py.val * 64 + px.val < 32 * 64 := by omega
    have hrow : (py.val * 64 + px.val) / 64 = py.val := by omega
    have hcolumn : (py.val * 64 + px.val) % 64 = px.val := by omega
    rw [Framebuffer.flat_eq_flatten, Vector.getElem?_toList, Vector.getElem?_eq_getElem hpos, Vector.getElem_flatten]
    simp only [hrow, hcolumn]
    rfl

end Sys2Proof.Machine
end

section
/-! The draw instruction (spec/44_draw.md): the pixels a sprite names, and that drawing toggles each of them once. -/

namespace Sys2Proof.Machine

/-! ## Toggling a set of pixels -/

/-- From `c` to `c'` exactly the pixels of `S` are toggled, and a collision is recorded when one of them was on
(R120). -/
structure Canvas.Toggles (S : Fin 64 → Fin 32 → Prop) (c c' : Canvas) : Prop where
  inside : ∀ px py, S px py → Framebuffer.pixel c'.fb px py = !Framebuffer.pixel c.fb px py
  outside : ∀ px py, ¬S px py → Framebuffer.pixel c'.fb px py = Framebuffer.pixel c.fb px py
  collision_iff : c'.collision = true ↔ c.collision = true ∨ ∃ px py, S px py ∧ Framebuffer.pixel c.fb px py = true

theorem Canvas.Toggles.of_empty {S : Fin 64 → Fin 32 → Prop} (hS : ∀ px py, ¬S px py) (c : Canvas) :
    Canvas.Toggles S c c where
  inside px py h := absurd h (hS px py)
  outside _ _ _ := rfl
  collision_iff := by simp [hS]

theorem Canvas.Toggles.of_single {S : Fin 64 → Fin 32 → Prop} {px₀ : Fin 64} {py₀ : Fin 32}
    (hS : ∀ px py, S px py ↔ px = px₀ ∧ py = py₀) (c : Canvas) : Canvas.Toggles S c (c.toggle px₀ py₀) where
  inside px py h := (c.pixel_toggle px₀ px py₀ py).trans (if_pos ((hS px py).1 h))
  outside px py h := (c.pixel_toggle px₀ px py₀ py).trans (if_neg fun e => h ((hS px py).2 e))
  collision_iff := by simp [hS, Canvas.collision_toggle]

/-- Two disjoint sets toggled one after the other: what the second meets is what the first met there. -/
theorem Canvas.Toggles.union {S S₁ S₂ : Fin 64 → Fin 32 → Prop} {c c' c'' : Canvas} (h₁ : Canvas.Toggles S₁ c c')
    (h₂ : Canvas.Toggles S₂ c' c'') (hS : ∀ px py, S px py ↔ S₁ px py ∨ S₂ px py)
    (hdisjoint : ∀ px py, S₁ px py → ¬S₂ px py) : Canvas.Toggles S c c'' where
  inside px py h := by
    rcases (hS px py).1 h with h | h
    · rw [h₂.outside px py (hdisjoint px py h), h₁.inside px py h]
    · rw [h₂.inside px py h, h₁.outside px py fun h' => hdisjoint px py h' h]
  outside px py h := by
    rw [h₂.outside px py fun e => h ((hS px py).2 (.inr e)), h₁.outside px py fun e => h ((hS px py).2 (.inl e))]
  collision_iff := by
    have hmeets : ∀ px py, S₂ px py → Framebuffer.pixel c'.fb px py = Framebuffer.pixel c.fb px py := fun px py h =>
      h₁.outside px py fun h' => hdisjoint px py h' h
    have hsame : (∃ px py, S₂ px py ∧ Framebuffer.pixel c'.fb px py = true) ↔
        ∃ px py, S₂ px py ∧ Framebuffer.pixel c.fb px py = true :=
      exists₂_congr fun px py => and_congr_right fun h => by rw [hmeets px py h]
    rw [h₂.collision_iff, h₁.collision_iff, hsame]
    simp only [hS, or_and_right, exists_or, or_assoc]

/-! ## The pixels of a sprite -/

/-- Bit `b` of a row of the sprite names the pixel (R120, R121, R122): the bit is 1, and the pixel stands `b` right of
the origin's column and `r` below its row, wrapped. -/
def SpritePixel (ox oy r : Nat) (row : Byte) (b : Nat) (px : Fin 64) (py : Fin 32) : Prop :=
  spriteBit row b = true ∧ px.val = (ox + b) % 64 ∧ py.val = (oy + r) % 32

theorem Canvas.toggles_drawBit (ox oy r : Nat) (row : Byte) (c : Canvas) (b : Nat) :
    Canvas.Toggles (SpritePixel ox oy r row b) c (Canvas.drawBit ox oy r row c b) := by
  unfold Canvas.drawBit
  split
  · next hbit =>
    refine Canvas.Toggles.of_single (fun px py => ?_) c
    simp only [SpritePixel, hbit, true_and, Fin.ext_iff, Fin.val_ofNat]
  · next hbit => exact Canvas.Toggles.of_empty (fun _ _ h => hbit h.1) c

/-- Different bits below 8 name different columns, so a list of them toggles the pixels of each (by induction on the
list). -/
theorem Canvas.toggles_drawBits (ox oy r : Nat) (row : Byte) {bits : List Nat} (hnodup : bits.Nodup)
    (hlt : ∀ b ∈ bits, b < 8) (c : Canvas) :
    Canvas.Toggles (fun px py => ∃ b ∈ bits, SpritePixel ox oy r row b px py) c
      (bits.foldl (Canvas.drawBit ox oy r row) c) := by
  induction bits generalizing c with
  | nil => exact Canvas.Toggles.of_empty (by simp) c
  | cons b bits ih =>
    obtain ⟨hb, hnodup⟩ := List.nodup_cons.1 hnodup
    obtain ⟨hb8, hlt⟩ := List.forall_mem_cons.1 hlt
    refine (Canvas.toggles_drawBit ox oy r row c b).union (ih hnodup hlt _) (fun px py => by simp) ?_
    rintro px py ⟨_, hcolumn, _⟩ ⟨b', hb', _, hcolumn', _⟩
    have hb'8 := hlt b' hb'
    have hbb' : b = b' := by omega
    exact hb (hbb' ▸ hb')

theorem Canvas.toggles_drawRow (ox oy r : Nat) (row : Byte) (c : Canvas) :
    Canvas.Toggles (fun px py => ∃ b < 8, SpritePixel ox oy r row b px py) c (c.drawRow ox oy r row) := by
  have hbits : [0, 1, 2, 3, 4, 5, 6, 7] = List.range 8 := by decide
  have h := Canvas.toggles_drawBits ox oy r row (List.nodup_range (n := 8)) (fun b => List.mem_range.1) c
  simp only [List.mem_range] at h
  rwa [Canvas.drawRow, hbits]

/-- Different rows below 32 name different screen rows, so `n` of them toggle the pixels of each (by induction on
`n`). -/
theorem Canvas.toggles_drawRows (ox oy : Nat) (row : Nat → Byte) (c : Canvas) {n : Nat} (hn : n ≤ 32) :
    Canvas.Toggles (fun px py => ∃ r < n, ∃ b < 8, SpritePixel ox oy r (row r) b px py) c
      (Canvas.drawRows ox oy row c n) := by
  induction n with
  | zero => exact Canvas.Toggles.of_empty (by simp) c
  | succ n ih =>
    refine (ih (by omega)).union (Canvas.toggles_drawRow ox oy n (row n) _) (fun px py => ?_) ?_
    · simp only [Nat.lt_succ_iff_lt_or_eq, or_and_right, exists_or, exists_eq_left]
    · rintro px py ⟨r, hr, b, _, _, _, hrow⟩ ⟨b', _, _, _, hrow'⟩
      omega

/-- The set S of R120: the pixels that the sprite of `DRW Vx, Vy, n` names. -/
def State.SpriteSet (s : State) (x y : Reg) (n : Nat) (px : Fin 64) (py : Fin 32) : Prop :=
  ∃ r < n, ∃ b < 8, SpritePixel (originColumn (s.readV x)) (originRow (s.readV y)) r (s.spriteRow r) b px py

theorem State.spriteSet_congr {s s' : State} {x y : Reg} (n : Nat) (hx : (Part.reg x).same s s')
    (hy : (Part.reg y).same s s') (hi : Part.index.same s s') (hmem : Part.memory.same s s') :
    s'.SpriteSet x y n = s.SpriteSet x y n := by
  have hx : s'.readV x = s.readV x := hx
  have hy : s'.readV y = s.readV y := hy
  unfold State.SpriteSet
  rw [hx, hy, State.spriteRow_congr hi hmem]

theorem State.toggles_drawSprite (s : State) (x y : Reg) (n : Fin 16) :
    Canvas.Toggles (s.SpriteSet x y n.val) ⟨s.fb, false⟩ (s.drawSprite x y n) :=
  Canvas.toggles_drawRows _ _ _ _ (by omega)

/-- The collision of a sprite: one of its pixels was on. -/
theorem State.drawSprite_collision_iff (s : State) (x y : Reg) (n : Fin 16) :
    (s.drawSprite x y n).collision = true ↔ ∃ px py, s.SpriteSet x y n.val px py ∧ s.pixel px py = true :=
  (s.toggles_drawSprite x y n).collision_iff.trans (or_iff_right Bool.false_ne_true)

theorem flagByte_eq_one_iff (b : Bool) : flagByte b = 1 ↔ b = true := by
  cases b <;> decide

/-! ## DRW -/

/-- Settles O45: S is the set of the sprite, and the canvas shown has toggled exactly it. -/
theorem drwTogglesSpriteSet : Obligations.DrwTogglesSpriteSet := by
  intro x y n s
  have htoggles := s.toggles_drawSprite x y n
  have hcollision := s.drawSprite_collision_iff x y n
  refine ⟨s.SpriteSet x y n.val, _, fun px py => .rfl, exec_drw x y n s, htoggles.inside, htoggles.outside,
    fun h => ?_, fun h => ?_, s.showCanvas_redraw _, s.changesOnly_showCanvas _⟩
  · rw [State.showCanvas_readV_vf, hcollision.2 h]
    rfl
  · rw [State.showCanvas_readV_vf, Bool.eq_false_iff.2 (mt hcollision.1 h)]
    rfl

/-- Settles O46: with no row the canvas is the old picture without a collision, so the picture is written back as it
was. -/
theorem drwOfNoRows : Obligations.DrwOfNoRows := by
  intro x y s
  have hcanvas : s.drawSprite x y 0 = ⟨s.fb, false⟩ := rfl
  have hframe : ChangesOnly [.reg Reg.vf, .redraw] s (s.showCanvas ⟨s.fb, false⟩) :=
    (s.changesOnly_writeFlag false).append (State.changesOnly_writeRedraw _ true)
  refine ⟨_, exec_drw x y 0 s, ?_, s.showCanvas_redraw _, hframe⟩
  rw [State.showCanvas_readV_vf, hcanvas]
  rfl

/-- Settles O47: the second draw has the same sprite, so it toggles the same pixels back, and it meets the pixels that
are on after the first, which within the sprite are those that were off before it. -/
theorem doubleDrawRestoresPicture : Obligations.DoubleDrawRestoresPicture := by
  intro x y n s t t' h hscreen hx hy hi hmem
  rw [exec_drw] at h
  cases h
  have hset : t'.SpriteSet x y n.val = s.SpriteSet x y n.val := State.spriteSet_congr n.val hx hy hi hmem
  have hmeets : ∀ px py, t'.pixel px py = Framebuffer.pixel (s.drawSprite x y n).fb px py := hscreen
  have hfirst := s.toggles_drawSprite x y n
  have hsecond := t'.toggles_drawSprite x y n
  refine ⟨_, exec_drw x y n t', fun px py => ?_, ?_⟩
  · rw [State.showCanvas_pixel]
    by_cases hS : s.SpriteSet x y n.val px py
    · calc Framebuffer.pixel (t'.drawSprite x y n).fb px py
        _ = !t'.pixel px py := hsecond.inside px py (hset ▸ hS)
        _ = !!s.pixel px py := by rw [hmeets, hfirst.inside px py hS]; rfl
        _ = s.pixel px py := Bool.not_not _
    · calc Framebuffer.pixel (t'.drawSprite x y n).fb px py
        _ = t'.pixel px py := hsecond.outside px py (hset ▸ hS)
        _ = s.pixel px py := (hmeets px py).trans (hfirst.outside px py hS)
  · rw [State.showCanvas_readV_vf, flagByte_eq_one_iff, State.drawSprite_collision_iff, hset]
    refine exists₂_congr fun px py => ?_
    rw [State.showCanvas_pixel, hmeets]
    by_cases hS : s.SpriteSet x y n.val px py
    · have hturned : Framebuffer.pixel (s.drawSprite x y n).fb px py = !s.pixel px py := hfirst.inside px py hS
      simp [hS, hturned]
    · have hkept : Framebuffer.pixel (s.drawSprite x y n).fb px py = s.pixel px py := hfirst.outside px py hS
      simp [hS, hkept]

end Sys2Proof.Machine
end
